-- ==== Sys2Proof/Word.lean ====
section
/-! DEFINITION. The data words of the block: bytes, 32-bit words, run records, code table elements and the names of
the five address spaces (spec 00_scope.md R6, 20_memory.md R50, 30_encoding.md R76, 10_state.md R38). -/

namespace Sys2Proof

/-- A `u8`: a sample, a symbol, one byte of the artifact (R6). -/
abbrev Byte := BitVec 8

/-- A `u32`: a command word, a frequency, the data of one host access (R6, R50). -/
abbrev Word := BitVec 32

/-- One run `(symbol, length)` (R10, R76).  The length is an exact count; a legal one is in `1 .. 255`
(`Run.wellFormed`). -/
structure Run where
  symbol : Byte
  length : Nat
  deriving DecidableEq, Repr

/-- An element of CODE, held as R38 allows: "A model may hold an element as an optional list of bits."
`none` is PRESENT = 0; `some bits` is PRESENT = 1 with LEN = the list's length and BITS[i] = its element `i`
(0 beyond LEN); `true` is the bit 1. -/
abbrev CodeEntry := Option (List Bool)

/-- The five address spaces of the host port (R50). -/
inductive Space where
  | csr
  | raster
  | stream
  | freq
  | code
  deriving DecidableEq, Repr

end Sys2Proof
end

