-- ==== Sys2Proof/Syntax.lean ====
section
/-! DEFINITION. The command set, whole: one constructor per row of spec/opcode_table.json (30_encoding.md R71).
No command has an operand field (R72), so no constructor has an argument. -/

namespace Sys2Proof

/-- A command of the block (R71).  Illegal command words are no commands: the decoder rejects them by name. -/
inductive Instr where
  /-- RLE_ENC, `compress` of RunLengthCodec (R91). -/
  | rleEnc
  /-- RLE_DEC, `decompress` of RunLengthCodec (R92). -/
  | rleDec
  /-- BP_ENC, compress of BitPlaneRunLengthCodec (R101). -/
  | bpEnc
  /-- BP_DEC, `decompress` of BitPlaneRunLengthCodec (R102). -/
  | bpDec
  /-- HIST, step 1 of HuffmanCodec `compress` (R111). -/
  | hist
  /-- HBUILD, steps 2 to 5 of HuffmanCodec `compress` (R112). -/
  | hbuild
  deriving DecidableEq, Repr

end Sys2Proof
end

