-- ==== Sys2Proof/WellFormed.lean ====
section
/-! DEFINITION. The checks on syntax and on the data words: a command, a run record, a code table element. -/

namespace Sys2Proof

/-- Every command is well formed: no command has an operand field, an immediate or a register specifier (R72), so
there is nothing for a check to refuse in one. -/
def Instr.wellFormed : Instr → Bool
  | .rleEnc => true
  | .rleDec => true
  | .bpEnc => true
  | .bpDec => true
  | .hist => true
  | .hbuild => true

/-- A run is well formed when its length is a legal length byte, 1 to 255 (R76, R5 `MAXRUN`). -/
def Run.wellFormed (r : Run) : Bool :=
  decide (1 ≤ r.length) && decide (r.length ≤ 255)

/-- A code table element is well formed when its LEN is in `0 .. 255` (R38). -/
def CodeEntry.wellFormed (c : CodeEntry) : Bool :=
  match c with
  | none => true
  | some bits => decide (bits.length ≤ 255)

end Sys2Proof
end

