-- ==== Sys2Proof/Decode.lean ====
section
/-! DEFINITION. The decoder of command words, total on all 32-bit words (30_encoding.md R70 to R74), and the encoder
written from the same opcode map (R71). -/

namespace Sys2Proof

/-- Why a command word is no command (R73). -/
inductive DecodeReject where
  /-- Bits 31:8 (`ZERO`) are not all 0, whatever `OPC` is. -/
  | zeroFieldNotZero
  /-- Bits 31:8 are 0 and `OPC` is 0x00 or in 0x07..0xFF. -/
  | reservedOpcode
  deriving DecidableEq, Repr

/-- Field `ZERO`, bits 31:8 of a command word (R70). -/
def zeroField (c : Word) : BitVec 24 := c.extractLsb' 8 24

/-- Field `OPC`, bits 7:0 of a command word (R70). -/
def opcField (c : Word) : BitVec 8 := c.extractLsb' 0 8

/-- One row of the opcode map (R71): the opcode and the command it selects. -/
structure OpcodeRow where
  opc : BitVec 8
  instr : Instr
  deriving DecidableEq, Repr

/-- The opcode map of R71. -/
def opcodeMap : List OpcodeRow :=
  [⟨0x01#8, .rleEnc⟩, ⟨0x02#8, .rleDec⟩, ⟨0x03#8, .bpEnc⟩, ⟨0x04#8, .bpDec⟩, ⟨0x05#8, .hist⟩, ⟨0x06#8, .hbuild⟩]

/-- The decoder of R74. -/
def decode (c : Word) : Except DecodeReject Instr :=
  if zeroField c ≠ 0#24 then .error .zeroFieldNotZero
  else
    match opcodeMap.find? (fun row => row.opc = opcField c) with
    | some row => .ok row.instr
    | none => .error .reservedOpcode

/-- The command word of a command: the column "word" of R71's table. -/
def encode : Instr → Word
  | .rleEnc => 0x00000001#32
  | .rleDec => 0x00000002#32
  | .bpEnc => 0x00000003#32
  | .bpDec => 0x00000004#32
  | .hist => 0x00000005#32
  | .hbuild => 0x00000006#32

/-- The command the decoder reads from a table row's word `w` of `nbits` bits.  The block's word is 32 bits, written
whole to `CSR.CMD` (R70); bits above `nbits` are 0, and a longer word is no command word. -/
def decodeTableWord (nbits w : Nat) : Option Instr :=
  if nbits ≤ 32 then
    match decode (BitVec.ofNat 32 (w % 2 ^ nbits)) with
    | .ok i => some i
    | .error _ => none
  else none

end Sys2Proof
end

