-- ==== Sys2Proof/Config.lean ====
section
/-! DEFINITION. What an implementation fixes (00_scope.md R5) and the values the spec leaves open
(93_implementation_defined.md S1, S2, S4, S10).  The free values are constants with no body: nothing can be proved
about which value they have. -/

namespace Sys2Proof

/-- Raster dimensions `W` and `H` (R5): "Rules are written with the names so that a model may take `W` and `H` as
arguments". -/
structure Geometry where
  /-- `W`, samples per row. -/
  w : Nat
  /-- `H`, rows. -/
  h : Nat
  deriving DecidableEq, Repr

/-- `NPIX = W*H`, samples per raster (R5). -/
def Geometry.npix (g : Geometry) : Nat := g.w * g.h

/-- `NPLANES` (R5). -/
def Config.nplanes : Nat := 8

/-- `MAXRUN`, the largest run length in one record (R5). -/
def Config.maxRun : Nat := 255

/-- `NPLANES*NPIX`, the cells the bit-plane decoder visits (R8 (c)). -/
def Geometry.cells (g : Geometry) : Nat := Config.nplanes * g.npix

/-- `STREAM_CAP = 2*NPLANES*NPIX`, the capacity of STREAM in bytes (R5). -/
def Geometry.streamCap (g : Geometry) : Nat := 2 * Config.nplanes * g.npix

/-- This hardware's dimensions, 512 by 512 (R5: "the hardware's own value is always the one in the table"). -/
def Config.geometry : Geometry := ⟨512, 512⟩

/-- FREE VALUE (S1, S10; log 1): what RASTER element `i` holds after reset number `epoch`, until it is written. -/
opaque Config.resetRaster (epoch i : Nat) : Byte

/-- FREE VALUE (S1, S10; log 1): what STREAM element `i` holds after reset number `epoch`, until it is written. -/
opaque Config.resetStream (epoch i : Nat) : Byte

/-- FREE VALUE (S1, S10; log 1): what FREQ element `v` holds after reset number `epoch`, until it is written. -/
opaque Config.resetFreq (epoch v : Nat) : Word

/-- FREE VALUE (S2; log 3): what the `draw`-th busy read answers if it is a read of RASTER or STREAM. -/
opaque Config.busyByte (draw : Nat) : Byte

/-- FREE VALUE (S2; log 3): what the `draw`-th busy read answers if it is a read of FREQ. -/
opaque Config.busyFreq (draw : Nat) : Word

/-- FREE VALUE (S2; log 3): what the `draw`-th busy read answers if it is a read of CODE. -/
opaque Config.busyCode (draw : Nat) : CodeEntry

/-- OPEN PARAMETER `BUSMAP` (R51, R57, S4; log 12): the (space, index) pair a bus address stands for.  "no rule
depends on it", and no definition of the model reads it. -/
opaque Config.busMap (address : Nat) : Option (Space × Nat)

end Sys2Proof
end

