-- ==== Sys2Proof/Machine/State.lean ====
section
/-! DEFINITION. The machine's state: every piece of state of 10_state.md R20, and the four fields of the model's own
that hold the host's coming actions, what the port has answered, and the counters of free values. -/

namespace Sys2Proof.Machine

/-- A byte space: (index, byte) pairs, indices strictly rising.  An index that is not listed has not been written
since the reset and reads as a free value (log 1, log 2). -/
abbrev Memory := List Host.Cell

/-- What the host port hands back for one read (R50): a 32-bit word, or a CODE element as one value. -/
inductive PortValue where
  | word (w : Word)
  | code (c : CodeEntry)
  deriving DecidableEq, Repr

/-- One turn of an agent (R9, R185).  The host's turns are its three steps; `engine` is the engine's turn, which is
the completion step where that is enabled. -/
inductive Event where
  /-- `HostRead(space, i)` (R50). -/
  | hostRead (sp : Space) (i : Nat)
  /-- `HostWrite(space, i, v)` (R50). -/
  | hostWrite (sp : Space) (i : Nat) (v : Word)
  /-- The reset input (R180). -/
  | reset
  /-- The engine's turn (R185). -/
  | engine
  deriving DecidableEq, Repr

/-- The errors a command can end with (R151): the block's exceptions. -/
inductive CmdError where
  /-- code 1 `FormatError`: raised by RLE_DEC, BP_DEC -/
  | format
  /-- code 2 `TruncatedDataError`: raised by RLE_DEC, BP_DEC -/
  | truncatedData
  /-- code 3 `OverrunError`: raised by RLE_DEC, BP_DEC -/
  | overrun
  /-- code 4 `UnsupportedImageSizeError`: raised by RLE_ENC, BP_ENC, HIST -/
  | unsupportedImageSize
  /-- code 5 `IOError`: "never by the block; reserved for host software" (R151, S8) -/
  | io
  /-- code 6 `EmptyHistogramError`: raised by HBUILD -/
  | emptyHistogram
  /-- code 7 `FrequencyOverflowError`: raised by HBUILD -/
  | frequencyOverflow
  /-- code 8 `IllegalCommandError`: raised by every illegal command word -/
  | illegalCommand
  deriving DecidableEq, Repr

/-- Reasons for which the machine stops.  There are none (log 20): "No error is fatal to the core itself" (R150), "the
block cannot hang" (R185), "every host action has a defined effect" (R187).  The type has no constructor, so no step
can fault. -/
inductive Fault
  deriving DecidableEq, Repr

/-- Reasons for which a command has no meaning. -/
inductive Refusal where
  /-- Raised by an arm of `exec` whose command has no meaning yet; no arm does.  Safe: the run stops. -/
  | notModelled (mnemonic : String)
  deriving DecidableEq, Repr

/-- The state of the block (R20) and of its surroundings as far as a step needs them. -/
structure State where
  /-- LATCH, and what a read of `CMD` returns (R22, R25). -/
  latch : Word
  /-- STATUS bit 0 `BUSY` (R23, R26). -/
  busy : Bool
  /-- STATUS bit 1 `DONE` (R23, R26). -/
  done : Bool
  /-- STATUS bit 2 `HAZ` (R23, R26, R166). -/
  haz : Bool
  /-- `ERR` (R27). -/
  err : BitVec 4
  /-- `ERRLOG` (R28). -/
  errlog : BitVec 16
  /-- CTRL bit 0 `IE` (R29). -/
  ie : Bool
  /-- `IMG_W` (R30). -/
  imgW : BitVec 16
  /-- `IMG_H` (R30). -/
  imgH : BitVec 16
  /-- `STREAM_LEN` (R31). -/
  streamLen : Word
  /-- `NCODES` (R32). -/
  ncodes : BitVec 9
  /-- `EST_LO` (R33). -/
  estLo : Word
  /-- `EST_HI` (R33). -/
  estHi : BitVec 8
  /-- RASTER (R35). -/
  raster : Memory
  /-- STREAM (R36). -/
  stream : Memory
  /-- FREQ (R37). -/
  freq : Vector Word 256
  /-- CODE (R38). -/
  code : Vector CodeEntry 256
  /-- The model's own (log 1): which reset the unspecified buffer contents belong to. -/
  epoch : Nat
  /-- The model's own (log 3): how many free values busy reads have taken. -/
  draws : Nat
  /-- The model's own (log 4): the turns still to be taken, the next one first. -/
  pending : List Event
  /-- The model's own (log 6): what the port has answered the host, newest first. -/
  returned : List PortValue
  deriving DecidableEq, Repr

/-- The block right after reset number `epoch` (R40, R180, R181): every CSR and LATCH 0, every CODE element absent,
RASTER, STREAM and FREQ unspecified. -/
def State.afterReset (epoch : Nat) : State :=
  { latch := 0#32
    busy := false
    done := false
    haz := false
    err := 0#4
    errlog := 0#16
    ie := false
    imgW := 0#16
    imgH := 0#16
    streamLen := 0#32
    ncodes := 0#9
    estLo := 0#32
    estHi := 0#8
    raster := []
    stream := []
    freq := Vector.ofFn fun v : Fin 256 => Config.resetFreq epoch v
    code := Vector.replicate 256 none
    epoch := epoch
    draws := 0
    pending := []
    returned := [] }

/-- The machine right after reset (R40), the host having no action pending (log 5). -/
def State.reset : State := State.afterReset 0

end Sys2Proof.Machine
end

