-- ==== Sys2Proof/Machine/Flags.lean ====
section
/-! DEFINITION. Every flag computation of the block: the STATUS flags BUSY, DONE, HAZ (10_state.md R23, R26), the
error code and its sticky log bit (R27, R28, 60_exceptions.md R151), and the interrupt line (R158).  No command
computes condition codes (R23). -/

namespace Sys2Proof.Machine

/-- The code of an error, and its bit position in ERRLOG (R151). -/
def CmdError.code : CmdError → BitVec 4
  | .format => 1#4
  | .truncatedData => 2#4
  | .overrun => 3#4
  | .unsupportedImageSize => 4#4
  | .io => 5#4
  | .emptyHistogram => 6#4
  | .frequencyOverflow => 7#4
  | .illegalCommand => 8#4

/-- `ERRLOG[code] <- 1`, the other bits kept (R28, R154). -/
def logError (log : BitVec 16) (e : CmdError) : BitVec 16 :=
  log ||| (1#16 <<< e.code.toNat)

/-- One flag as a 32-bit word with the flag at bit `k`. -/
def flagBit (b : Bool) (k : Nat) : Word :=
  if b then 1#32 <<< k else 0#32

/-- The word a read of STATUS returns: BUSY at bit 0, DONE at bit 1, HAZ at bit 2, bits 31:3 zero (R26). -/
def statusWord (s : State) : Word :=
  flagBit s.busy 0 ||| flagBit s.done 1 ||| flagBit s.haz 2

/-- `STATUS.HAZ <- 1` (R60, R166). -/
def setHaz (s : State) : State :=
  { s with haz := true }

/-- A host write of `v` to STATUS while not busy: bit 1 clears DONE and bit 2 clears HAZ where `v` has a 1; BUSY and
the reserved bits ignore the write (R26, W1C of R24). -/
def clearStatus (v : Word) (s : State) : State :=
  { s with done := s.done && !v.getLsbD 1
           haz := s.haz && !v.getLsbD 2 }

/-- The interrupt output, level-sensitive: `irq = CTRL.IE and STATUS.DONE` (R158). -/
def State.irq (s : State) : Bool := s.ie && s.done

end Sys2Proof.Machine
end

