-- ==== Sys2Proof/Machine/Ops.lean ====
section
/-! DEFINITION. The named operations over the buffer spaces, the CSRs and the sequencing state: reading and writing
one element, writing a whole range at completion, issue, completion with and without an error (the block's exception
entry, 60_exceptions.md R154), reset. -/

namespace Sys2Proof.Machine

/-! ### Byte spaces -/

/-- The canonical form of a byte space: indices strictly rising, every one below `size`.  An unlisted index reads as
no written value (log 2), so no entry can equal what it would read as unlisted. -/
def Memory.wf (size : Nat) : Memory → Bool
  | [] => true
  | [cell] => decide (cell.1 < size)
  | cell :: next :: rest => decide (cell.1 < next.1) && Memory.wf size (next :: rest)

/-- What was last written at index `i` since the reset, if anything. -/
def Memory.get? : Memory → Nat → Option Byte
  | [], _ => none
  | cell :: rest, i => if cell.1 = i then some cell.2 else Memory.get? rest i

/-- One element written, the canonical form kept. -/
def Memory.set : Memory → Nat → Byte → Memory
  | [], i, v => [(i, v)]
  | cell :: rest, i, v =>
    if i < cell.1 then (i, v) :: cell :: rest
    else if i = cell.1 then (i, v) :: rest
    else cell :: Memory.set rest i v

/-- Elements `0 .. |vals|-1` written with `vals`, all elements from `|vals|` on unchanged: the one shape of a command's
write to a byte space (R65). -/
def Memory.overwrite (m : Memory) (vals : List Byte) : Memory :=
  vals.mapIdx (fun i v => (i, v)) ++ m.filter (fun cell => vals.length ≤ cell.1)

/-- Elements `0 .. n-1` as a list, an element nothing has written reading as `background` gives it. -/
def Memory.readRange (background : Nat → Byte) (m : Memory) (n : Nat) : List Byte :=
  (List.range n).map fun i => (m.get? i).getD (background i)

/-- `Memory.readRange` for evaluation: one pass over the listed cells instead of one search per element. -/
def Memory.readRangeFast (background : Nat → Byte) (m : Memory) (n : Nat) : List Byte :=
  (m.foldr (fun cell (found : Array (Option Byte)) => found.setIfInBounds cell.1 (some cell.2))
    (Array.replicate n none)).toList.mapIdx fun i v => v.getD (background i)

theorem Memory.foldr_setIfInBounds_getElem? (m : Memory) (n i : Nat) :
    (m.foldr (fun cell (found : Array (Option Byte)) => found.setIfInBounds cell.1 (some cell.2))
      (Array.replicate n none))[i]? = if i < n then some (m.get? i) else none := by
  induction m with
  | nil => simp [Memory.get?, Array.getElem?_replicate]
  | cons cell rest ih =>
    have size : (rest.foldr (fun cell (found : Array (Option Byte)) => found.setIfInBounds cell.1 (some cell.2))
        (Array.replicate n none)).size = n := by
      clear ih
      induction rest with
      | nil => simp
      | cons c r ih => simpa using ih
    simp only [List.foldr_cons, Array.getElem?_setIfInBounds, size, ih, Memory.get?]
    by_cases here : cell.1 = i <;> simp [here]

/-- The clear and the fast reading of a range agree, so compiled code may run the fast one. -/
@[csimp] theorem Memory.readRange_eq_fast : @Memory.readRange = @Memory.readRangeFast := by
  funext background m n
  apply List.ext_getElem?
  intro i
  simp only [Memory.readRange, Memory.readRangeFast, List.getElem?_map, List.getElem?_mapIdx,
    Array.getElem?_toList, Memory.foldr_setIfInBounds_getElem?]
  by_cases inside : i < n <;> simp [inside]

/-- `RASTER[i]` (R35, R40). -/
def State.rasterAt (s : State) (i : Nat) : Byte :=
  (s.raster.get? i).getD (Config.resetRaster s.epoch i)

/-- `STREAM[i]` (R36, R40). -/
def State.streamAt (s : State) (i : Nat) : Byte :=
  (s.stream.get? i).getD (Config.resetStream s.epoch i)

/-- `FREQ[v]` (R37); 0 for an index outside the space (R56). -/
def State.freqAt (s : State) (v : Nat) : Word :=
  if h : v < 256 then s.freq[v] else 0#32

/-- `CODE[v]` (R38); for an index outside the space the element whose fields are all 0, the absent one (R56, log 9). -/
def State.codeAt (s : State) (v : Nat) : CodeEntry :=
  if h : v < 256 then s.code[v] else none

/-! ### Control and status registers -/

/-- The 32-bit word a read of CSR index `i` returns: unused high bits zero (R24), reserved and out-of-range indices
zero (R34, R56). -/
def csrRead (s : State) (i : Nat) : Word :=
  match i with
  | 0 => s.latch
  | 1 => statusWord s
  | 2 => s.err.setWidth 32
  | 3 => s.errlog.setWidth 32
  | 4 => flagBit s.ie 0
  | 5 => s.imgW.setWidth 32
  | 6 => s.imgH.setWidth 32
  | 7 => s.streamLen
  | 8 => s.ncodes.setWidth 32
  | 9 => s.estLo
  | 10 => s.estHi.setWidth 32
  | _ => 0#32

/-- The issue step (R22): the command word is latched, BUSY set, DONE and ERR cleared, "and nothing else". -/
def issue (c : Word) (s : State) : State :=
  { s with latch := c, busy := true, done := false, err := 0#4 }

/-- A host write of `v` to CSR index `i` while not busy, by the access column of R24: CMD issues (R25), STATUS is
write-1-to-clear (R26), CTRL keeps bit 0 (R29), IMG_W and IMG_H keep bits 15:0 (R30), STREAM_LEN keeps all (R31);
read-only, reserved and out-of-range indices ignore the write (R34, R56). -/
def csrWrite (i : Nat) (v : Word) (s : State) : State :=
  match i with
  | 0 => issue v s
  | 1 => clearStatus v s
  | 4 => { s with ie := v.getLsbD 0 }
  | 5 => { s with imgW := v.setWidth 16 }
  | 6 => { s with imgH := v.setWidth 16 }
  | 7 => { s with streamLen := v }
  | _ => s

/-! ### Completion: success, and taking an error -/

/-- Taking an error, the block's exception entry (R22, R154): `ERR <- code; ERRLOG[code] <- 1; BUSY <- 0; DONE <- 1`
and nothing else.  Control goes nowhere and nothing is saved; no return exists or is needed, the block is idle and takes
the next issue at once (R156). -/
def takeError (e : CmdError) (s : State) : State :=
  { s with err := e.code, errlog := logError s.errlog e, busy := false, done := true }

/-- Completion without an error, the command's writes being in `s` already (R22); `ERR` is the success code 0 (R150,
R151, log 10). -/
def succeed (s : State) : State :=
  { s with err := 0#4, busy := false, done := true }

/-- The completion step (R22): `result` is the error the command ends with, or the state with the command's writes.
On an error the state at issue is kept, whole (R154, R155). -/
def complete (s : State) (result : Except CmdError State) : State :=
  match result with
  | .error e => takeError e s
  | .ok t => succeed t

/-- The completion of an illegal command word: always `IllegalCommandError` (R73). -/
def completeIllegal (s : State) : State :=
  complete s (.error .illegalCommand)

/-- The command LATCH names, if it names one (R22, R74): the block's counterpart of fetching an instruction. -/
def latchedCommand (s : State) : Except DecodeReject Instr :=
  decode s.latch

/-! ### Turns -/

/-- The turns still to be taken become `rest` (log 4). -/
def setPending (rest : List Event) (s : State) : State :=
  { s with pending := rest }

/-! ### Reset -/

/-- The reset step (R180 to R182), possible in any state: every piece of the block's state as R40 gives it, the buffers
unspecified anew (`epoch`).  The host's coming actions and what it has been answered are no state of the block. -/
def resetBlock (s : State) : State :=
  { State.afterReset (s.epoch + 1) with
      draws := s.draws, pending := s.pending, returned := s.returned }

end Sys2Proof.Machine
end

