-- ==== Sys2Proof/Machine/Operands.lean ====
section
/-! DEFINITION. The operand forms.  Every operand of a command is implicit (30_encoding.md R72): the declared
dimensions, the raster as one sequence of samples, a bit-plane of it, the records of the artifact, the frequency table;
and the two results that are serialised, run records and the size estimate. -/

namespace Sys2Proof.Machine

/-- Whether the declared dimensions are the block's (R30): `IMG_W = W` and `IMG_H = H`. -/
def declaredSizeOk (g : Geometry) (s : State) : Bool :=
  decide (s.imgW.toNat = g.w) && decide (s.imgH.toNat = g.h)

/-- The index of sample `(x, y)`, column `x` of row `y` (R35, R53). -/
def rasterIndex (g : Geometry) (x y : Nat) : Nat := y * g.w + x

/-- The raster in scan order, `RASTER[0], ..., RASTER[NPIX-1]` (R53, R91). -/
def samples (g : Geometry) (s : State) : List Byte :=
  s.raster.readRange (Config.resetRaster s.epoch) g.npix

/-- `s & (1 << p)`: the plane symbol of one sample, the raw mask, not normalised (R6, R8 (b), R100). -/
def planeSymbol (p : Nat) (sample : Byte) : Byte := sample &&& (1#8 <<< p)

/-- The plane sequence `plane(p)` of a raster (R100). -/
def plane (p : Nat) (raster : List Byte) : List Byte := raster.map (planeSymbol p)

/-- One run as two bytes, symbol first (R52, R76). -/
def runBytes (r : Run) : List Byte := [r.symbol, BitVec.ofNat 8 r.length]

/-- A run list as the flat byte sequence of the artifact (R52, R76). -/
def serialise (runs : List Run) : List Byte := runs.flatMap runBytes

/-- The records of an artifact in order: record `k` is the bytes at `2k` (symbol) and `2k+1` (length) (R52). -/
def parseRuns : List Byte → List Run → List Run
  | symbol :: length :: rest, found => parseRuns rest (⟨symbol, length.toNat⟩ :: found)
  | _, found => found.reverse

/-- The artifact bytes `STREAM[0..n-1]` (R31). -/
def streamBytes (s : State) (n : Nat) : List Byte :=
  s.stream.readRange (Config.resetStream s.epoch) n

/-- The records a decoder reads: those of `STREAM[0..STREAM_LEN-1]` (R92, R102). -/
def streamRuns (s : State) : List Run :=
  parseRuns (streamBytes s s.streamLen.toNat) []

/-- An encoder's writes (R65): `STREAM[0..n-1] <- out`, `STREAM_LEN <- n`, where `n = |out|`. -/
def writeArtifact (out : List Byte) (s : State) : State :=
  { s with stream := s.stream.overwrite out
           streamLen := BitVec.ofNat 32 out.length }

/-- A decoder's writes (R65): `RASTER[0..NPIX-1]`, `IMG_W <- W`, `IMG_H <- H`. -/
def writeRaster (g : Geometry) (out : List Byte) (s : State) : State :=
  { s with raster := s.raster.overwrite out
           imgW := BitVec.ofNat 16 g.w
           imgH := BitVec.ofNat 16 g.h }

/-- The checks both decoders make before any byte is read (R92, R102): parity first, then capacity (R153). -/
def artifactLengthError (g : Geometry) (s : State) : Option CmdError :=
  if s.streamLen.toNat % 2 ≠ 0 then some .format
  else if g.streamCap < s.streamLen.toNat then some .overrun
  else none

/-- A code table element as R38 spells it: PRESENT. -/
def entryPresent (c : CodeEntry) : Bool := c.isSome

/-- A code table element as R38 spells it: LEN, 0 when absent. -/
def entryLen (c : CodeEntry) : Nat :=
  match c with
  | none => 0
  | some bits => bits.length

/-- A code table element as R38 spells it: `BITS[i]`, 0 for `i >= LEN`. -/
def entryBit (c : CodeEntry) (i : Nat) : Bool :=
  match c with
  | none => false
  | some bits => bits.getD i false

/-- Code number `i` as text (R77): one character per bit, leftmost the step at the root. -/
def codeText (bits : List Bool) : String :=
  String.ofList (bits.map fun b => if b then '1' else '0')

/-- `EST = EST_HI * 2^32 + EST_LO` (R33). -/
def State.est (s : State) : Nat := s.estHi.toNat * 2 ^ 32 + s.estLo.toNat

end Sys2Proof.Machine
end

