-- ==== Sys2Proof/Machine/Rle.lean ====
section
/-! DEFINITION. The run-length commands RLE_ENC and RLE_DEC and the function `rle` they share with the bit-plane
commands (40_rle.md). -/

namespace Sys2Proof.Machine

/-- The loop of `rle` (R90): `symbol`, `length` are the current run, `out` the closed runs, newest first.  A run is
closed when the next sample differs or its length is 255; the last one is closed at the end of the input. -/
def rleLoop : List Byte → Byte → Nat → List Run → List Run
  | [], symbol, length, out => ⟨symbol, length⟩ :: out
  | sample :: rest, symbol, length, out =>
    if sample ≠ symbol ∨ length = Config.maxRun then rleLoop rest sample 1 (⟨symbol, length⟩ :: out)
    else rleLoop rest symbol (length + 1) out

/-- The runs of `rle(seq)` in order (R90).  The input is never empty in the block; an empty one has no run (log 14). -/
def rleRuns : List Byte → List Run
  | [] => []
  | sample :: rest => (rleLoop rest sample 1 []).reverse

/-- `rle(seq)` (R90): the records of the runs as one byte list. -/
def rle (seq : List Byte) : List Byte := serialise (rleRuns seq)

/-- RLE_ENC (R91) for a raster of the dimensions `g`. -/
def rleEnc (g : Geometry) (s : State) : Except CmdError State :=
  if declaredSizeOk g s then .ok (writeArtifact (rle (samples g s)) s)
  else .error .unsupportedImageSize

/-- The record loop of RLE_DEC (R92): `c` samples emitted so far, held newest first in `emitted` (the transient `tmp`).
Per record the zero-length check comes before the overrun check; the truncation check comes after the last. -/
def rleDecLoop (npix : Nat) : List Run → Nat → List Byte → Except CmdError (List Byte)
  | [], c, emitted => if c ≠ npix then .error .truncatedData else .ok emitted.reverse
  | r :: rest, c, emitted =>
    if r.length = 0 then .error .format
    else if npix < c + r.length then .error .overrun
    else rleDecLoop npix rest (c + r.length) (List.replicate r.length r.symbol ++ emitted)

/-- RLE_DEC (R92) for a raster of the dimensions `g`. -/
def rleDec (g : Geometry) (s : State) : Except CmdError State :=
  match artifactLengthError g s with
  | some e => .error e
  | none =>
    match rleDecLoop g.npix (streamRuns s) 0 [] with
    | .error e => .error e
    | .ok out => .ok (writeRaster g out s)

/-- RLE_ENC on this hardware, at its completion step. -/
def execRleEnc (s : State) : Host.Outcome State Fault Refusal :=
  .next (complete s (rleEnc Config.geometry s))

/-- RLE_DEC on this hardware, at its completion step. -/
def execRleDec (s : State) : Host.Outcome State Fault Refusal :=
  .next (complete s (rleDec Config.geometry s))

end Sys2Proof.Machine
end

