-- ==== Sys2Proof/Machine/BitPlane.lean ====
section
/-! DEFINITION. The bit-plane commands BP_ENC and BP_DEC (41_bitplane.md). -/

namespace Sys2Proof.Machine

/-- The artifact of BP_ENC (R101): the 8 planes in order, plane 0 first, each run-length encoded on its own. -/
def bpArtifact (raster : List Byte) : List Byte :=
  (List.range Config.nplanes).flatMap fun p => rle (plane p raster)

/-- BP_ENC (R101) for a raster of the dimensions `g`. -/
def bpEnc (g : Geometry) (s : State) : Except CmdError State :=
  if declaredSizeOk g s then .ok (writeArtifact (bpArtifact (samples g s)) s)
  else .error .unsupportedImageSize

/-- The repetitions of one record in BP_DEC (R102), `k` of them left, `c` cells visited so far, `acc` the transient
accumulators: the overrun check comes before the sum check of the same cell, and `symbol` is added, not overwritten. -/
def bpRepeat (g : Geometry) (symbol : Nat) : Nat → Nat → Array Nat → Except CmdError (Nat × Array Nat)
  | 0, c, acc => .ok (c, acc)
  | k + 1, c, acc =>
    if c = g.cells then .error .overrun
    else
      let i := c % g.npix
      let sum := acc.getD i 0 + symbol
      if 255 < sum then .error .format
      else bpRepeat g symbol k (c + 1) (acc.setIfInBounds i sum)

/-- The record loop of BP_DEC (R102): the zero-length check comes before a record's repetitions, the truncation check
after the last record. -/
def bpDecLoop (g : Geometry) : List Run → Nat → Array Nat → Except CmdError (Array Nat)
  | [], c, acc => if c < g.cells then .error .truncatedData else .ok acc
  | r :: rest, c, acc =>
    if r.length = 0 then .error .format
    else
      match bpRepeat g r.symbol.toNat r.length c acc with
      | .error e => .error e
      | .ok (c', acc') => bpDecLoop g rest c' acc'

/-- BP_DEC (R102) for a raster of the dimensions `g`: the accumulators start at 0. -/
def bpDec (g : Geometry) (s : State) : Except CmdError State :=
  match artifactLengthError g s with
  | some e => .error e
  | none =>
    match bpDecLoop g (streamRuns s) 0 (Array.replicate g.npix 0) with
    | .error e => .error e
    | .ok acc => .ok (writeRaster g (acc.toList.map (BitVec.ofNat 8)) s)

/-- BP_ENC on this hardware, at its completion step. -/
def execBpEnc (s : State) : Host.Outcome State Fault Refusal :=
  .next (complete s (bpEnc Config.geometry s))

/-- BP_DEC on this hardware, at its completion step. -/
def execBpDec (s : State) : Host.Outcome State Fault Refusal :=
  .next (complete s (bpDec Config.geometry s))

end Sys2Proof.Machine
end

