-- ==== Sys2Proof/Machine/Huffman.lean ====
section
/-! DEFINITION. The Huffman commands HIST and HBUILD (42_huffman.md): the histogram, the frequency-weighted tree with
its tie-break, the code table and the size estimate. -/

namespace Sys2Proof.Machine

/-- HIST (R111) for a raster of the dimensions `g`: all 256 entries are written. -/
def hist (g : Geometry) (s : State) : Except CmdError State :=
  if declaredSizeOk g s then
    let seq := samples g s
    .ok { s with freq := Vector.ofFn fun v : Fin 256 => BitVec.ofNat 32 (seq.count (BitVec.ofNat 8 v)) }
  else .error .unsupportedImageSize

/-- A node of the transient tree with what it owns (R78, R110).  A frequency is an exact number; the check on the total
keeps every one below `2^32` (R8 (f), R112). -/
inductive Tree where
  | leaf (value : Byte) (frequency : Nat)
  | internal (left right : Tree) (frequency : Nat)
  deriving DecidableEq, Repr

/-- A node's frequency (R110). -/
def treeFrequency : Tree → Nat
  | .leaf _ f => f
  | .internal _ _ f => f

/-- The internal node over two removed nodes: the first removed is the left child, the second the right one (R115),
and the frequency is the sum (R110). -/
def treeJoin (first second : Tree) : Tree :=
  .internal first second (treeFrequency first + treeFrequency second)

/-- A node not yet merged, with its creation sequence number, the arena index of R110. -/
structure LiveNode where
  index : Nat
  tree : Tree
  deriving DecidableEq, Repr

/-- The removal order of R114: `(frequency, arena index)` compared lexicographically. -/
def LiveNode.before (a b : LiveNode) : Bool :=
  decide (treeFrequency a.tree < treeFrequency b.tree) ||
    (decide (treeFrequency a.tree = treeFrequency b.tree) && decide (a.index < b.index))

/-- The node of least key among `x :: rest`, and the others (R114). -/
def extractMin : LiveNode → List LiveNode → LiveNode × List LiveNode
  | x, [] => (x, [])
  | x, y :: rest =>
    if y.before x then
      let (least, others) := extractMin y rest
      (least, x :: others)
    else
      let (least, others) := extractMin x rest
      (least, y :: others)

/-- `merge` of R114.  The live set is `x :: rest`; `next` is the next arena index; `fuel` bounds the iterations, of
which there are `|rest|`.  While two nodes are live the two of least key are removed and their join is put back under the
next index; the one node left is the root. -/
def merge : Nat → Nat → LiveNode → List LiveNode → Tree
  | 0, _, x, _ => x.tree
  | fuel + 1, next, x, rest =>
    match extractMin x rest with
    | (a, []) => a.tree
    | (a, y :: others) =>
      let (b, left) := extractMin y others
      merge fuel (next + 1) ⟨next, treeJoin a.tree b.tree⟩ left

/-- `make_leaves` (R113): one leaf per value with a non-zero frequency, in increasing order of value; the leaf's place
in the list is its arena index. -/
def makeLeaves (freq : Vector Word 256) : List LiveNode :=
  ((List.finRange 256).filterMap fun v : Fin 256 =>
    if freq[v] = 0#32 then none else some (Tree.leaf (BitVec.ofNat 8 v) freq[v].toNat)).mapIdx LiveNode.mk

/-- `assign` (R117): the code of a value is the path from the root to its leaf, `false` (0) for a left edge and `true`
(1) for a right edge, first edge first.  A root that is a leaf has the empty code (R116). -/
def assign : Tree → List Bool → List (Byte × List Bool)
  | .leaf value _, path => [(value, path)]
  | .internal left right _, path => assign left (path ++ [false]) ++ assign right (path ++ [true])

/-- The sum of the 256 frequencies, unbounded (R112). -/
def freqTotal (freq : Vector Word 256) : Nat := (freq.toList.map BitVec.toNat).sum

/-- The number of non-zero frequencies, `n` of R112. -/
def freqSupport (freq : Vector Word 256) : Nat := freq.toList.countP fun f => f ≠ 0#32

/-- The code table of the tree as the 256 elements of CODE (R118): absent for a value the table has no entry for. -/
def codeElements (table : List (Byte × List Bool)) : Vector CodeEntry 256 :=
  Vector.ofFn fun v : Fin 256 => table.lookup (BitVec.ofNat 8 v)

/-- The size estimate (R119): the sum over the present values of `ceil(LEN/8) * FREQ`. -/
def sizeEstimate (freq : Vector Word 256) (table : List (Byte × List Bool)) : Nat :=
  (table.map fun entry => (entry.2.length + 7) / 8 * freq[entry.1.toNat].toNat).sum

/-- The write-back of a successful HBUILD (R118, R119). -/
def writeTable (table : List (Byte × List Bool)) (s : State) : State :=
  let est := sizeEstimate s.freq table
  { s with code := codeElements table
           ncodes := BitVec.ofNat 9 (freqSupport s.freq)
           estLo := BitVec.ofNat 32 (est % 2 ^ 32)
           estHi := BitVec.ofNat 8 (est / 2 ^ 32) }

/-- HBUILD (R112): the empty check before the overflow check, both before any node is merged. -/
def hbuild (s : State) : Except CmdError State :=
  match makeLeaves s.freq with
  | [] => .error .emptyHistogram
  | x :: rest =>
    if 2 ^ 32 ≤ freqTotal s.freq then .error .frequencyOverflow
    else
      let n := rest.length + 1
      .ok (writeTable (assign (merge n n x rest) []) s)

/-- HIST on this hardware, at its completion step. -/
def execHist (s : State) : Host.Outcome State Fault Refusal :=
  .next (complete s (hist Config.geometry s))

/-- HBUILD, at its completion step.  It reads no dimension (R112). -/
def execHbuild (s : State) : Host.Outcome State Fault Refusal :=
  .next (complete s (hbuild s))

end Sys2Proof.Machine
end

