-- ==== Sys2Proof/Machine/Dispatch.lean ====
section
/-! DEFINITION. One arm per command: what the completion step of a decoded command does (10_state.md R22). -/

namespace Sys2Proof.Machine

/-- The completion step of a command. -/
def exec (i : Instr) (s : State) : Host.Outcome State Fault Refusal :=
  match i with
  | .rleEnc => Sys2Proof.Machine.execRleEnc s
  | .rleDec => Sys2Proof.Machine.execRleDec s
  | .bpEnc => Sys2Proof.Machine.execBpEnc s
  | .bpDec => Sys2Proof.Machine.execBpDec s
  | .hist => Sys2Proof.Machine.execHist s
  | .hbuild => Sys2Proof.Machine.execHbuild s

end Sys2Proof.Machine
end

