-- ==== Sys2Proof/Machine/HostPort.lean ====
section
/-! DEFINITION. The host port (20_memory.md section 1, R60): `HostRead` and `HostWrite`, the busy lockout, and the host
script notation of 30_encoding.md R79, R80 as lists of turns. -/

namespace Sys2Proof.Machine

/-- The element a read returns while the block is not busy, or from CSR at any time (R50, R56): narrow elements
zero-extended, 0 outside the space's range. -/
def portElement (g : Geometry) (s : State) (sp : Space) (i : Nat) : PortValue :=
  match sp with
  | .csr => .word (csrRead s i)
  | .raster => .word (if i < g.npix then (s.rasterAt i).setWidth 32 else 0#32)
  | .stream => .word (if i < g.streamCap then (s.streamAt i).setWidth 32 else 0#32)
  | .freq => .word (s.freqAt i)
  | .code => .code (s.codeAt i)

/-- The unspecified value of the element type that a buffer read returns while busy (R60, S2; log 3): the free value
number `draw`.  CSR is no buffer: its reads never take one. -/
def busyElement (draw : Nat) (sp : Space) : PortValue :=
  match sp with
  | .csr => .word 0#32
  | .raster => .word ((Config.busyByte draw).setWidth 32)
  | .stream => .word ((Config.busyByte draw).setWidth 32)
  | .freq => .word (Config.busyFreq draw)
  | .code => .code ((Config.busyCode draw).map fun bits => bits.take 255)

/-- `HostRead(space, i)` (R50, R55, R56, R60): the answer goes to `returned`; the only side effect of a read is HAZ, for
a buffer read while busy. -/
def hostRead (g : Geometry) (sp : Space) (i : Nat) (s : State) : State :=
  if s.busy && decide (sp ≠ .csr) then
    { setHaz s with draws := s.draws + 1, returned := busyElement s.draws sp :: s.returned }
  else
    { s with returned := portElement g s sp i :: s.returned }

/-- A host write while the block is not busy (R50, R56): the low bits are kept, an index outside the range and the
read-only CODE ignore the write. -/
def idleWrite (g : Geometry) (sp : Space) (i : Nat) (v : Word) (s : State) : State :=
  match sp with
  | .csr => csrWrite i v s
  | .raster => if i < g.npix then { s with raster := s.raster.set i (v.setWidth 8) } else s
  | .stream => if i < g.streamCap then { s with stream := s.stream.set i (v.setWidth 8) } else s
  | .freq => { s with freq := s.freq.setIfInBounds i v }
  | .code => s

/-- `HostWrite(space, i, v)` (R50, R60): while busy every write, "to any space and any index", is dropped and sets
HAZ. -/
def hostWrite (g : Geometry) (sp : Space) (i : Nat) (v : Word) (s : State) : State :=
  if s.busy then setHaz s else idleWrite g sp i v s

/-! ### Host scripts (R79, R80) -/

/-- `cmd M` = `wr CMD, word of M` (R79). -/
def scriptCmd (i : Instr) : List Event := [.hostWrite .csr 0 (encode i)]

/-- `wait` repeats `rd STATUS` until `DONE` reads 1 (R79), on the schedule in which the engine completes before the
first of these reads (log 18). -/
def scriptWait : List Event := [.engine, .hostRead .csr 1]

/-- `fill SPACE[a..b], f(i)` with `n` elements from index `a`, in increasing order (R79). -/
def scriptFill (sp : Space) (a n : Nat) (f : Nat → Word) : List Event :=
  (List.range n).map fun k => .hostWrite sp (a + k) (f (a + k))

/-- `run M` = `cmd M` then `wait` (R80). -/
def scriptRun (i : Instr) : List Event := scriptCmd i ++ scriptWait

/-- `setdim` = `wr IMG_W, 512` then `wr IMG_H, 512` (R80). -/
def scriptSetdim : List Event := [.hostWrite .csr 5 512#32, .hostWrite .csr 6 512#32]

/-- `clrdone` = `wr STATUS, 2` (R80). -/
def scriptClrdone : List Event := [.hostWrite .csr 1 2#32]

/-- `clrhaz` = `wr STATUS, 4` (R80). -/
def scriptClrhaz : List Event := [.hostWrite .csr 1 4#32]

/-- `huff` = `run HIST` then `run HBUILD` (R80). -/
def scriptHuff : List Event := scriptRun .hist ++ scriptRun .hbuild

end Sys2Proof.Machine
end

