-- ==== Sys2Proof/Machine/Step.lean ====
section
/-! DEFINITION. One step of the machine (70_reset_and_hazards.md R185): a host step or the engine's completion step,
whichever the next turn in `pending` names; the engine's when no turn is left. -/

namespace Sys2Proof.Machine

/-- The engine's turn (R22, R185): the completion step, enabled exactly when BUSY = 1; nothing when idle.  The command
is the one LATCH names; a word that names none completes with `IllegalCommandError` (R73). -/
def engineTurn (s : State) : Host.Outcome State Fault Refusal :=
  if s.busy then
    match latchedCommand s with
    | .ok i => exec i s
    | .error _ => .next (completeIllegal s)
  else .next s

/-- One step (R185). -/
def step (s : State) : Host.Outcome State Fault Refusal :=
  match s.pending with
  | [] => engineTurn s
  | .engine :: rest => engineTurn (setPending rest s)
  | .hostRead sp i :: rest => .next (hostRead Config.geometry sp i (setPending rest s))
  | .hostWrite sp i v :: rest => .next (hostWrite Config.geometry sp i v (setPending rest s))
  | .reset :: rest => .next (resetBlock (setPending rest s))

/-- `s` with the command word `w` (its `nbits` bits, the bits above them 0) issued as by R22 and the engine's turn next,
so that the very next step completes exactly that command (log 5).  The turns that stood in `pending` come after it. -/
def State.withFetchWord (s : State) (nbits w : Nat) : State :=
  setPending (.engine :: s.pending) (issue (BitVec.ofNat 32 (w % 2 ^ nbits)) s)

end Sys2Proof.Machine
end

