-- ==== Sys2Proof/Safety.lean ====
section
/-! DEFINITION. What counts as a safe run of the block and the vocabulary of the claims: the invariants of
10_state.md R41, what "no error recorded" means (R28), run lists as the spec describes them (40_rle.md R90), and the
tree construction of 42_huffman.md as relations, independent of the functions the machine runs. -/

namespace Sys2Proof.Machine

/-! ### Safe runs -/

/-- No command has ended with an error since the reset (R28: "a model's claim can take 'no error recorded' as a
premise"). -/
def noErrorRecorded (s : State) : Prop := s.errlog = 0#16

/-- The host has done nothing the block could not honour (R23, R166). -/
def noHazardRecorded (s : State) : Prop := s.haz = false

/-- The next step is the engine's turn, after which `rest` is pending: the host's list names it, or is empty (log 4). -/
def engineNext (s : State) (rest : List Event) : Prop :=
  s.pending = .engine :: rest ∨ (s.pending = [] ∧ rest = [])

/-- A turn that is a host access, neither the engine's nor a reset. -/
def isHostAccess : Event → Bool
  | .hostRead _ _ => true
  | .hostWrite _ _ _ => true
  | .reset => false
  | .engine => false

/-! ### Invariants (R41) -/

/-- The flag and error registers (R41, R26, R27, R28, R60, S6, S8): BUSY and DONE never both 1, ERR 0 while busy, ERR a
code the block raises, its log bit set, and the log bits of codes no rule raises 0. -/
def FlagsInv (s : State) : Prop :=
  ¬ (s.busy = true ∧ s.done = true) ∧
  (s.busy = true → s.err = 0#4) ∧
  s.err.toNat ≤ 8 ∧ s.err ≠ 5#4 ∧
  (s.err ≠ 0#4 → s.errlog.getLsbD s.err.toNat = true) ∧
  ∀ k, k = 0 ∨ k = 5 ∨ 9 ≤ k → s.errlog.getLsbD k = false

/-- RASTER and STREAM keep their canonical form, with no cell outside their range (R35, R36; log 2). -/
def BuffersInv (s : State) : Prop :=
  s.raster.wf Config.geometry.npix = true ∧ s.stream.wf Config.geometry.streamCap = true

/-- The number of `v` with `CODE[v].PRESENT = 1` (R32). -/
def presentCodes (s : State) : Nat := s.code.toList.countP Option.isSome

/-- The code table (R41, R38, R32): NCODES counts the present elements, every LEN is at most 255, with two or more the
present codes are pairwise prefix-free, and a present code is empty exactly when it is the only one. -/
def CodesInv (s : State) : Prop :=
  s.ncodes.toNat = presentCodes s ∧
  (∀ v, (s.codeAt v).wellFormed = true) ∧
  (2 ≤ s.ncodes.toNat → ∀ v w a b, v ≠ w → s.codeAt v = some a → s.codeAt w = some b → ¬ a <+: b) ∧
  ∀ v a, s.codeAt v = some a → (a = [] ↔ s.ncodes.toNat = 1)

/-! ### Run lists (R90) and artifacts (R52) -/

/-- The symbols a run list stands for, in order. -/
def expandRuns (runs : List Run) : List Byte := runs.flatMap fun r => List.replicate r.length r.symbol

/-- "two consecutive records have equal symbols only if the first has length 255" (R90). -/
def MaximalRuns : List Run → Prop
  | r :: q :: rest => (r.symbol = q.symbol → r.length = 255) ∧ MaximalRuns (q :: rest)
  | _ => True

/-- The run list of a sequence under the 255 cap (R90): legal lengths, maximal runs, and nothing lost. -/
def IsRunListOf (runs : List Run) (seq : List Byte) : Prop :=
  (∀ r ∈ runs, r.wellFormed = true) ∧ MaximalRuns runs ∧ expandRuns runs = seq

/-- The valid bytes of STREAM, `STREAM[0..STREAM_LEN-1]`, are the records `runs`: symbol at `2k`, length at `2k+1`
(R31, R52). -/
def StreamHolds (s : State) (runs : List Run) : Prop :=
  s.streamLen.toNat = 2 * runs.length ∧
  ∀ k (h : k < runs.length),
    s.streamAt (2 * k) = runs[k].symbol ∧ (s.streamAt (2 * k + 1)).toNat = runs[k].length

/-- RASTER in scan order (R53), read element by element. -/
def rasterList (s : State) : List Byte := (List.range Config.geometry.npix).map s.rasterAt

/-- The sum of the contributions the symbols `seq`, laid over the planes in order, make to cell `i` (R102). -/
def cellSum (g : Geometry) (seq : List Byte) (i : Nat) : Nat :=
  ((List.range 8).map fun p => (seq.getD (p * g.npix + i) 0#8).toNat).sum

/-- Every cell's sum of contributions stays a u8 (R8 (d), R102). -/
def CellSumsFit (g : Geometry) (seq : List Byte) : Prop := ∀ i, i < g.npix → cellSum g seq i ≤ 255

/-! ### The Huffman tree as relations (R113 to R117) -/

/-- The sum of the 256 frequencies (R112), read element by element. -/
def totalFrequency (s : State) : Nat := ((List.range 256).map fun v => (s.freqAt v).toNat).sum

/-- The number of values with a non-zero frequency (R112). -/
def distinctValues (s : State) : Nat := (List.range 256).countP fun v => s.freqAt v ≠ 0#32

/-- `leaves` is the list `make_leaves` of R113: arena indices 0, 1, 2, ..., values strictly increasing, a leaf exactly
for each value of non-zero frequency, with that frequency. -/
def LeavesInOrder (s : State) (leaves : List LiveNode) : Prop :=
  ∃ values : List Nat,
    values.Pairwise (· < ·) ∧
    (∀ v, v ∈ values ↔ v < 256 ∧ s.freqAt v ≠ 0#32) ∧
    leaves = values.mapIdx fun j v => ⟨j, .leaf (BitVec.ofNat 8 v) (s.freqAt v).toNat⟩

/-- `a` is removed before `b` (R114): the key (frequency, arena index), compared lexicographically, is the smaller. -/
def KeyLess (a b : LiveNode) : Prop :=
  treeFrequency a.tree < treeFrequency b.tree ∨
    (treeFrequency a.tree = treeFrequency b.tree ∧ a.index < b.index)

/-- The merging of R114, R115: `root` results from the live set `live` with next arena index `next` when each iteration
removes the two nodes of least key, the least becoming the left child, and puts their join back under the next index. -/
inductive HuffmanMerge : Nat → List LiveNode → Tree → Prop
  | root (next k : Nat) (t : Tree) : HuffmanMerge next [⟨k, t⟩] t
  | merge (next : Nat) (live others : List LiveNode) (a b : LiveNode) (root : Tree)
      (removed : live.Perm (a :: b :: others))
      (aLeast : ∀ x ∈ b :: others, KeyLess a x)
      (bLeast : ∀ x ∈ others, KeyLess b x)
      (rest : HuffmanMerge (next + 1)
        (⟨next, .internal a.tree b.tree (treeFrequency a.tree + treeFrequency b.tree)⟩ :: others) root) :
      HuffmanMerge next live root

/-- `path` leads from the root of the tree to a leaf of value `v`, 0 for a left edge and 1 for a right edge (R117). -/
inductive PathTo : Tree → List Bool → Byte → Prop
  | leaf (v : Byte) (f : Nat) : PathTo (.leaf v f) [] v
  | left (l r : Tree) (f : Nat) (path : List Bool) (v : Byte) (below : PathTo l path v) :
      PathTo (.internal l r f) (false :: path) v
  | right (l r : Tree) (f : Nat) (path : List Bool) (v : Byte) (below : PathTo r path v) :
      PathTo (.internal l r f) (true :: path) v

end Sys2Proof.Machine
end

