-- ==== Sys2Proof/Certificates/Slice0/Obligations.lean ====
section
/-! DEFINITION. The statements for the provers, from the numbered rules of spec/.  `Config.geometry.npix` is
`NPIX = 262144` and `Config.geometry.streamCap` is `STREAM_CAP = 4194304`. -/

open Sys2Proof Sys2Proof.Machine

/-! ### Encoding (30_encoding.md) -/

/-- R71: a word selects a command exactly when it is that command's word. -/
def Obligations.EachCommandHasExactlyOneWord : Prop :=
  ∀ c : Word,
    (decode c = .ok .rleEnc ↔ c = 0x00000001#32) ∧
    (decode c = .ok .rleDec ↔ c = 0x00000002#32) ∧
    (decode c = .ok .bpEnc ↔ c = 0x00000003#32) ∧
    (decode c = .ok .bpDec ↔ c = 0x00000004#32) ∧
    (decode c = .ok .hist ↔ c = 0x00000005#32) ∧
    (decode c = .ok .hbuild ↔ c = 0x00000006#32)

/-- Encoder and decoder agree in both directions (R71, R74). -/
def Obligations.DecodeAndEncodeAgree : Prop :=
  (∀ i : Instr, decode (encode i) = .ok i ∧ decodeTableWord 32 (encode i).toNat = some i) ∧
  ∀ (c : Word) (i : Instr), decode c = .ok i → encode i = c

/-- R70, R73: which illegal words the decoder rejects under which name. -/
def Obligations.IllegalWordsAreRejectedByName : Prop :=
  ∀ c : Word,
    (decode c = .error .zeroFieldNotZero ↔ 256 ≤ c.toNat) ∧
    (decode c = .error .reservedOpcode ↔ c.toNat = 0 ∨ (7 ≤ c.toNat ∧ c.toNat ≤ 255))

/-- Sanity: words written out from R71's table and R73's list decode, or fail to, as the table says. -/
def Obligations.WordsOfTheTableDecode : Prop :=
  decode 0x00000001#32 = .ok .rleEnc ∧ decode 0x00000004#32 = .ok .bpDec ∧ decode 0x00000006#32 = .ok .hbuild ∧
  decode 0x00000101#32 = .error .zeroFieldNotZero ∧ decode 0x00000007#32 = .error .reservedOpcode

/-! ### Steps (10_state.md R22, 70_reset_and_hazards.md R185) -/

/-- A step of the busy block whose turn is the engine's runs exactly the command that LATCH decodes to (R22).
When that turn comes is the model's schedule (log 4). -/
def Obligations.EngineStepRunsTheLatchedCommand : Prop :=
  ∀ (s : State) (rest : List Event) (i : Instr),
    engineNext s rest → s.busy = true → decode s.latch = .ok i →
    step s = exec i { s with pending := rest }

/-- The completion step is enabled exactly when BUSY = 1 (R185): an engine turn of the idle block changes nothing.
That such a turn is a step at all is the model's choice (log 4). -/
def Obligations.EngineIsIdleWhenNotBusy : Prop :=
  ∀ (s : State) (rest : List Event),
    engineNext s rest → s.busy = false → step s = .next { s with pending := rest }

/-- R25: a write of CMD while idle issues whatever the word; while busy it is dropped and sets HAZ; an illegal word fails
at completion; a read returns LATCH, which only an issue and a reset ever change: the last word issued, or 0. -/
def Obligations.CmdRegisterIssuesLatchesAndReadsBack : Prop :=
  ∀ (s : State) (c : Word) (rest : List Event),
    (s.busy = false → s.pending = .hostWrite .csr 0 c :: rest →
      step s = .next { s with pending := rest, latch := c, busy := true, done := false, err := 0#4 }) ∧
    (s.busy = true → s.pending = .hostWrite .csr 0 c :: rest →
      step s = .next { s with pending := rest, haz := true }) ∧
    (s.busy = true → engineNext s rest → s.latch.toNat = 0 ∨ 7 ≤ s.latch.toNat →
      ∃ t, step s = .next t ∧ t.err = 8#4) ∧
    (s.pending = .hostRead .csr 0 :: rest →
      step s = .next { s with pending := rest, returned := .word s.latch :: s.returned }) ∧
    (∀ t, step s = .next t →
      t.latch = s.latch ∨
      (s.busy = false ∧ ∃ c' rest', s.pending = .hostWrite .csr 0 c' :: rest' ∧ t.latch = c') ∨
      (∃ rest', s.pending = .reset :: rest' ∧ t.latch = 0#32)) ∧
    State.reset.latch = 0#32

/-- R73: an illegal word is accepted at issue and completes with `IllegalCommandError` and no other change. -/
def Obligations.IllegalWordIssuesAndFails : Prop :=
  ∀ (s : State) (c : Word) (rest : List Event),
    (c.toNat = 0 ∨ 7 ≤ c.toNat) → s.busy = false → s.pending = .hostWrite .csr 0 c :: .engine :: rest →
    step s = .next { s with
      pending := .engine :: rest, latch := c, busy := true, done := false, err := 0#4 } ∧
    core.run 2 s = .next { s with
      pending := rest, latch := c, err := 8#4, errlog := s.errlog ||| 0x0100#16, busy := false, done := true }

/-- Every state has a next state: no error stops the block (R150) and it cannot hang (R185).  Two parts are the model's
reading: that nothing faults or is refused is DEDUCED (log 20), and that the idle block with no turn of the host's left has
a next state at all is the choice of log 4, since R185 enables the engine only while BUSY = 1. -/
def Obligations.EveryStateHasANextState : Prop :=
  ∀ s : State, ∃ t, step s = .next t

/-- R185: a busy block takes its completion step, the command still latched and BUSY still 1 right before it and DONE = 1
right after, unless a reset abandons the command (R182), which is why that clause has no reset turn pending; with or without
one, BUSY falls.  That the step comes at the latest when no host turn is left is the model's schedule (log 4), which stands
for R185's fairness. -/
def Obligations.EveryIssuedCommandCompletes : Prop :=
  ∀ s : State, s.busy = true →
    ((∀ e ∈ s.pending, e ≠ .reset) →
      ∃ k u t rest, k ≤ s.pending.length ∧
        core.run k s = .next u ∧ u.busy = true ∧ u.latch = s.latch ∧ engineNext u rest ∧
        step u = .next t ∧ t.busy = false ∧ t.done = true) ∧
    ∃ k t, k ≤ s.pending.length + 1 ∧ core.run k s = .next t ∧ t.busy = false

/-! ### The host port (20_memory.md, 10_state.md section 3) -/

/-- The value of every CSR as the host reads it, at any time and with no side effect (R24, R26 to R34, R55, R60). -/
def Obligations.CsrReadsReturnTheRegisters : Prop :=
  ∀ (s : State) (i : Nat) (rest : List Event), s.pending = .hostRead .csr i :: rest →
    ∃ w : Word,
      step s = .next { s with pending := rest, returned := .word w :: s.returned } ∧
      (i = 0 → w = s.latch) ∧
      (i = 1 → w.toNat = s.busy.toNat + 2 * s.done.toNat + 4 * s.haz.toNat) ∧
      (i = 2 → w.toNat = s.err.toNat) ∧
      (i = 3 → w.toNat = s.errlog.toNat) ∧
      (i = 4 → w.toNat = s.ie.toNat) ∧
      (i = 5 → w.toNat = s.imgW.toNat) ∧
      (i = 6 → w.toNat = s.imgH.toNat) ∧
      (i = 7 → w = s.streamLen) ∧
      (i = 8 → w.toNat = s.ncodes.toNat) ∧
      (i = 9 → w = s.estLo) ∧
      (i = 10 → w.toNat = s.estHi.toNat) ∧
      (11 ≤ i → w = 0#32)

/-- What a host write to each CSR does while the block is idle (R24, R26, R29 to R31, R34, R56). -/
def Obligations.CsrWritesWhileIdle : Prop :=
  ∀ (s : State) (i : Nat) (v : Word) (rest : List Event),
    s.busy = false → s.pending = .hostWrite .csr i v :: rest →
    (i = 1 → step s = .next { s with pending := rest, done := s.done && !v.getLsbD 1
                                     haz := s.haz && !v.getLsbD 2 }) ∧
    (i = 4 → step s = .next { s with pending := rest, ie := v.getLsbD 0 }) ∧
    (i = 5 → step s = .next { s with pending := rest, imgW := BitVec.ofNat 16 (v.toNat % 2 ^ 16) }) ∧
    (i = 6 → step s = .next { s with pending := rest, imgH := BitVec.ofNat 16 (v.toNat % 2 ^ 16) }) ∧
    (i = 7 → step s = .next { s with pending := rest, streamLen := v }) ∧
    (i = 2 ∨ i = 3 ∨ 8 ≤ i → step s = .next { s with pending := rest })

/-- R50: a host write to a buffer while idle stores the low bits at that element, and only there. -/
def Obligations.BufferWriteChangesOneElement : Prop :=
  ∀ (s : State) (i : Nat) (v : Word) (rest : List Event), s.busy = false →
    (s.pending = .hostWrite .raster i v :: rest → i < Config.geometry.npix →
      ∃ t, step s = .next t ∧ (t.rasterAt i).toNat = v.toNat % 256 ∧
        (∀ j, j ≠ i → t.rasterAt j = s.rasterAt j) ∧
        { t with raster := s.raster } = { s with pending := rest }) ∧
    (s.pending = .hostWrite .stream i v :: rest → i < Config.geometry.streamCap →
      ∃ t, step s = .next t ∧ (t.streamAt i).toNat = v.toNat % 256 ∧
        (∀ j, j ≠ i → t.streamAt j = s.streamAt j) ∧
        { t with stream := s.stream } = { s with pending := rest }) ∧
    (s.pending = .hostWrite .freq i v :: rest → i < 256 →
      ∃ t, step s = .next t ∧ t.freqAt i = v ∧
        (∀ j, j ≠ i → t.freqAt j = s.freqAt j) ∧
        { t with freq := s.freq } = { s with pending := rest })

/-- R50, R55: a host read of a buffer while idle returns the element, zero-extended, and changes nothing. -/
def Obligations.BufferReadWhileIdleReturnsTheElement : Prop :=
  ∀ (s : State) (i : Nat) (rest : List Event), s.busy = false →
    (s.pending = .hostRead .raster i :: rest → i < Config.geometry.npix →
      ∃ w : Word, w.toNat = (s.rasterAt i).toNat ∧
        step s = .next { s with pending := rest, returned := .word w :: s.returned }) ∧
    (s.pending = .hostRead .stream i :: rest → i < Config.geometry.streamCap →
      ∃ w : Word, w.toNat = (s.streamAt i).toNat ∧
        step s = .next { s with pending := rest, returned := .word w :: s.returned }) ∧
    (∀ h : i < 256, s.pending = .hostRead .freq i :: rest →
        step s = .next { s with pending := rest, returned := .word s.freq[i] :: s.returned }) ∧
    (∀ h : i < 256, s.pending = .hostRead .code i :: rest →
        step s = .next { s with pending := rest, returned := .code s.code[i] :: s.returned })

/-- R56: while idle, reads outside a space's range return 0 and writes there, or to a read-only location, do nothing;
neither sets HAZ.  (That the 0 of a CODE read is the element whose fields are all 0 is the model's reading, log 9.) -/
def Obligations.OutOfRangeAndReadOnlyAccesses : Prop :=
  ∀ (s : State) (i : Nat) (v : Word) (rest : List Event), s.busy = false →
    (s.pending = .hostRead .csr i :: rest → 16 ≤ i →
      step s = .next { s with pending := rest, returned := .word 0#32 :: s.returned }) ∧
    (s.pending = .hostRead .raster i :: rest → Config.geometry.npix ≤ i →
      step s = .next { s with pending := rest, returned := .word 0#32 :: s.returned }) ∧
    (s.pending = .hostRead .stream i :: rest → Config.geometry.streamCap ≤ i →
      step s = .next { s with pending := rest, returned := .word 0#32 :: s.returned }) ∧
    (s.pending = .hostRead .freq i :: rest → 256 ≤ i →
      step s = .next { s with pending := rest, returned := .word 0#32 :: s.returned }) ∧
    (s.pending = .hostRead .code i :: rest → 256 ≤ i →
      step s = .next { s with pending := rest, returned := .code none :: s.returned }) ∧
    (s.pending = .hostWrite .csr i v :: rest → 16 ≤ i ∨ i = 2 ∨ i = 3 ∨ i = 8 ∨ i = 9 ∨ i = 10 →
      step s = .next { s with pending := rest }) ∧
    (s.pending = .hostWrite .raster i v :: rest → Config.geometry.npix ≤ i →
      step s = .next { s with pending := rest }) ∧
    (s.pending = .hostWrite .stream i v :: rest → Config.geometry.streamCap ≤ i →
      step s = .next { s with pending := rest }) ∧
    (s.pending = .hostWrite .freq i v :: rest → 256 ≤ i →
      step s = .next { s with pending := rest }) ∧
    (s.pending = .hostWrite .code i v :: rest →
      step s = .next { s with pending := rest })

/-- R60: while busy every write is dropped and sets HAZ, a buffer read returns some value of the element type and sets
HAZ, and a CSR read returns the current register with no side effect: STATUS reads BUSY = 1, DONE = 0 and ERR reads 0
where the flag invariant holds.  (An out-of-range buffer read is one too: log 8.) -/
def Obligations.BusyLockout : Prop :=
  ∀ (s : State) (sp : Space) (i : Nat) (v : Word) (rest : List Event), s.busy = true →
    (s.pending = .hostWrite sp i v :: rest → step s = .next { s with pending := rest, haz := true }) ∧
    (s.pending = .hostRead sp i :: rest → sp ≠ .csr →
      ∃ value : PortValue,
        step s = .next { s with pending := rest, haz := true, draws := s.draws + 1
                                returned := value :: s.returned } ∧
        (sp = .raster ∨ sp = .stream → ∃ b : Byte, value = .word (b.setWidth 32)) ∧
        (sp = .freq → ∃ w : Word, value = .word w) ∧
        (sp = .code → ∃ c : CodeEntry, c.wellFormed = true ∧ value = .code c)) ∧
    (s.pending = .hostRead .csr i :: rest → FlagsInv s →
      ∃ w : Word,
        step s = .next { s with pending := rest, returned := .word w :: s.returned } ∧
        (i = 1 → w.toNat = 1 + 4 * s.haz.toNat) ∧ (i = 2 → w = 0#32))

/-- R53, R35: the scan order is row-major: row 0 left to right, then row 1, and so on; sample `(x, y)` is
`RASTER[y*W + x]`. -/
def Obligations.ScanOrderIsRowMajor : Prop :=
  ∀ s : State,
    samples Config.geometry s = rasterList s ∧
    rasterList s = (List.range 512).flatMap fun y =>
      (List.range 512).map fun x => s.rasterAt (rasterIndex Config.geometry x y)

/-- R77: a code as text has one character per bit, in order, `'0'` for a left step and `'1'` for a right step; the empty
code is the empty string. -/
def Obligations.CodeTextSpellsTheBits : Prop :=
  ∀ bits : List Bool,
    (codeText bits).length = entryLen (some bits) ∧
    (∀ i, i < bits.length →
      (codeText bits).toList[i]? = some (if entryBit (some bits) i then '1' else '0')) ∧
    codeText [] = ""

/-! ### Flags, interrupt, reset -/

/-- R158: the interrupt line is `IE and DONE`; it is high after a completion with IE = 1, and low after an issue, after
a write of 1 to STATUS bit 1, after IE is cleared, and after reset. -/
def Obligations.InterruptLineFollowsIeAndDone : Prop :=
  ∀ (s : State) (rest : List Event),
    (s.irq = true ↔ s.ie = true ∧ s.done = true) ∧
    (engineNext s rest → s.busy = true → ∃ t, step s = .next t ∧ t.irq = s.ie) ∧
    (∀ c, s.busy = false → s.pending = .hostWrite .csr 0 c :: rest → ∃ t, step s = .next t ∧ t.irq = false) ∧
    (∀ v : Word, s.busy = false → v.getLsbD 1 = true → s.pending = .hostWrite .csr 1 v :: rest →
      ∃ t, step s = .next t ∧ t.irq = false) ∧
    (∀ v : Word, s.busy = false → v.getLsbD 0 = false → s.pending = .hostWrite .csr 4 v :: rest →
      ∃ t, step s = .next t ∧ t.irq = false) ∧
    (s.pending = .reset :: rest → ∃ t, step s = .next t ∧ t.irq = false)

/-- R28: a step sets log bit `k` exactly when it completes a command with error code `k`; no step but a reset clears one,
and a reset clears all; bits 0 and 9 to 15 stay 0. -/
def Obligations.ErrlogRecordsErrorsUntilReset : Prop :=
  ∀ s t : State, step s = .next t →
    ((∀ rest, s.pending ≠ .reset :: rest) → ∀ k,
      (t.errlog.getLsbD k = true ↔
        s.errlog.getLsbD k = true ∨
          (s.busy = true ∧ (∃ rest, engineNext s rest) ∧ 1 ≤ k ∧ t.err.toNat = k))) ∧
    (∀ rest, s.pending = .reset :: rest → t.errlog = 0#16) ∧
    (∀ k, k = 0 ∨ 9 ≤ k → s.errlog.getLsbD k = false → t.errlog.getLsbD k = false)

/-- R23: HAZ once set is cleared only by a write of 1 to STATUS bit 2 while not busy, or by reset. -/
def Obligations.HazIsSticky : Prop :=
  ∀ (s t : State), step s = .next t → s.haz = true → t.haz = false →
    (∃ rest, s.pending = .reset :: rest) ∨
    (s.busy = false ∧ ∃ v rest, s.pending = .hostWrite .csr 1 v :: rest ∧ v.getLsbD 2 = true)

/-- R180, R182, R40: a reset step in any state, busy or not, leaves every CSR and LATCH 0 and CODE all absent, and the
buffers hold the unspecified values of the new reset (free values, log 1).  What becomes of the model's own fields is the
model's choice (log 17). -/
def Obligations.ResetStepLeavesTheResetValues : Prop :=
  ∀ (s : State) (rest : List Event), s.pending = .reset :: rest →
    ∃ t, step s = .next t ∧
      t.latch = 0#32 ∧ t.busy = false ∧ t.done = false ∧ t.haz = false ∧ t.err = 0#4 ∧ t.errlog = 0#16 ∧
      t.ie = false ∧ t.imgW = 0#16 ∧ t.imgH = 0#16 ∧ t.streamLen = 0#32 ∧ t.ncodes = 0#9 ∧
      t.estLo = 0#32 ∧ t.estHi = 0#8 ∧ (∀ v, t.codeAt v = none) ∧
      (∀ i, t.rasterAt i = Config.resetRaster (s.epoch + 1) i) ∧
      (∀ i, t.streamAt i = Config.resetStream (s.epoch + 1) i) ∧
      (∀ v, v < 256 → t.freqAt v = Config.resetFreq (s.epoch + 1) v) ∧
      t.epoch = s.epoch + 1 ∧ t.draws = s.draws ∧ t.pending = rest ∧ t.returned = s.returned

/-- R40: the reset state. -/
def Obligations.ResetStateHoldsTheResetValues : Prop :=
  State.reset.latch = 0#32 ∧ State.reset.busy = false ∧ State.reset.done = false ∧ State.reset.haz = false ∧
  State.reset.err = 0#4 ∧ State.reset.errlog = 0#16 ∧ State.reset.ie = false ∧
  State.reset.imgW = 0#16 ∧ State.reset.imgH = 0#16 ∧ State.reset.streamLen = 0#32 ∧
  State.reset.ncodes = 0#9 ∧ State.reset.estLo = 0#32 ∧ State.reset.estHi = 0#8 ∧
  ∀ v, State.reset.codeAt v = none

/-! ### Completion with an error (60_exceptions.md) -/

/-- R154, R155: a command that ends with an error changes `ERR`, `ERRLOG`, BUSY and DONE, and nothing else: every buffer
and every other CSR keeps the value it had at issue. -/
def Obligations.FailedCommandChangesOnlyStatusErrErrlog : Prop :=
  ∀ (i : Instr) (s t : State), exec i s = .next t → t.err ≠ 0#4 →
    t = { s with err := t.err, errlog := s.errlog ||| (1#16 <<< t.err.toNat), busy := false, done := true }

/-- R150, R151, R152: which error codes each command can end with, in any state. -/
def Obligations.EachCommandRaisesOnlyItsErrors : Prop :=
  ∀ s t : State,
    (∀ i, i = .rleEnc ∨ i = .bpEnc ∨ i = .hist → exec i s = .next t → t.err.toNat = 0 ∨ t.err.toNat = 4) ∧
    (∀ i, i = .rleDec ∨ i = .bpDec → exec i s = .next t → t.err.toNat ≤ 3) ∧
    (exec .hbuild s = .next t → t.err.toNat = 0 ∨ t.err.toNat = 6 ∨ t.err.toNat = 7)

/-- R30, R152: RLE_ENC, BP_ENC and HIST end with `UnsupportedImageSizeError` unless 512 by 512 is declared. -/
def Obligations.WrongDeclaredSizeFails : Prop :=
  ∀ (i : Instr) (s : State), i = .rleEnc ∨ i = .bpEnc ∨ i = .hist →
    s.imgW ≠ 512#16 ∨ s.imgH ≠ 512#16 →
    exec i s = .next { s with err := 4#4, errlog := s.errlog ||| 0x0010#16, busy := false, done := true }

/-- R54, R92, R102, R153: both decoders check parity before capacity, and both before any byte is read. -/
def Obligations.DecodersCheckLengthFirst : Prop :=
  ∀ (i : Instr) (s : State), i = .rleDec ∨ i = .bpDec →
    (s.streamLen.toNat % 2 = 1 →
      exec i s = .next { s with err := 1#4, errlog := s.errlog ||| 0x0002#16, busy := false, done := true }) ∧
    (s.streamLen.toNat % 2 = 0 → 4194304 < s.streamLen.toNat →
      exec i s = .next { s with err := 3#4, errlog := s.errlog ||| 0x0008#16, busy := false, done := true })

/-- R92: the errors of the record loop of RLE_DEC, in its order: the first record that has length 0 or carries the
count past NPIX decides; if there is none, too few samples. -/
def Obligations.RleDecRecordErrors : Prop :=
  ∀ (s : State) (good rest : List Run) (bad : Run),
    (∀ r ∈ good, 1 ≤ r.length) → (expandRuns good).length ≤ Config.geometry.npix →
    s.streamLen.toNat ≤ Config.geometry.streamCap →
    (StreamHolds s (good ++ bad :: rest) → bad.length = 0 →
      exec .rleDec s = .next { s with err := 1#4, errlog := s.errlog ||| 0x0002#16, busy := false, done := true }) ∧
    (StreamHolds s (good ++ bad :: rest) → 1 ≤ bad.length →
      Config.geometry.npix < (expandRuns good).length + bad.length →
      exec .rleDec s = .next { s with err := 3#4, errlog := s.errlog ||| 0x0008#16, busy := false, done := true }) ∧
    (StreamHolds s good → (expandRuns good).length < Config.geometry.npix →
      exec .rleDec s = .next { s with err := 2#4, errlog := s.errlog ||| 0x0004#16, busy := false, done := true })

/-- R102: the errors of the record loop of BP_DEC, in its order.  `good` are the records before the one that fails:
no length is 0, the cursor has not passed the last cell, every sum fits. -/
def Obligations.BpDecRecordErrors : Prop :=
  ∀ (s : State) (good rest : List Run) (bad : Run) (j : Nat),
    (∀ r ∈ good, 1 ≤ r.length) → (expandRuns good).length ≤ Config.geometry.cells →
    CellSumsFit Config.geometry (expandRuns good) → s.streamLen.toNat ≤ Config.geometry.streamCap →
    (StreamHolds s (good ++ bad :: rest) → bad.length = 0 →
      exec .bpDec s = .next { s with err := 1#4, errlog := s.errlog ||| 0x0002#16, busy := false, done := true }) ∧
    (StreamHolds s (good ++ bad :: rest) → j < bad.length →
      (expandRuns good).length + j < Config.geometry.cells →
      CellSumsFit Config.geometry (expandRuns good ++ List.replicate j bad.symbol) →
      ¬ CellSumsFit Config.geometry (expandRuns good ++ List.replicate (j + 1) bad.symbol) →
      exec .bpDec s = .next { s with err := 1#4, errlog := s.errlog ||| 0x0002#16, busy := false, done := true }) ∧
    (StreamHolds s (good ++ bad :: rest) → j < bad.length →
      (expandRuns good).length + j = Config.geometry.cells →
      CellSumsFit Config.geometry (expandRuns good ++ List.replicate j bad.symbol) →
      exec .bpDec s = .next { s with err := 3#4, errlog := s.errlog ||| 0x0008#16, busy := false, done := true }) ∧
    (StreamHolds s good → (expandRuns good).length < Config.geometry.cells →
      exec .bpDec s = .next { s with err := 2#4, errlog := s.errlog ||| 0x0004#16, busy := false, done := true })

/-- R112: HBUILD fails with `EmptyHistogramError` when every frequency is 0 and with `FrequencyOverflowError` when they
sum to `2^32` or more. -/
def Obligations.HbuildErrors : Prop :=
  ∀ s : State,
    ((∀ v, v < 256 → s.freqAt v = 0#32) →
      exec .hbuild s = .next { s with err := 6#4, errlog := s.errlog ||| 0x0040#16, busy := false, done := true }) ∧
    (2 ^ 32 ≤ totalFrequency s →
      exec .hbuild s = .next { s with err := 7#4, errlog := s.errlog ||| 0x0080#16, busy := false, done := true })

/-! ### RLE (40_rle.md) -/

/-- R91, R90: RLE_ENC on a declared 512 by 512 raster succeeds: it writes the records of the raster's run list under the
255 cap to the front of STREAM and their byte count to STREAM_LEN; the rest of STREAM and all else is unchanged. -/
def Obligations.RleEncWritesTheRunListOfTheRaster : Prop :=
  ∀ s : State, s.imgW = 512#16 → s.imgH = 512#16 →
    ∃ t runs, exec .rleEnc s = .next t ∧
      IsRunListOf runs (rasterList s) ∧
      StreamHolds t runs ∧
      (∀ j, t.streamLen.toNat ≤ j → t.streamAt j = s.streamAt j) ∧
      { t with stream := s.stream, streamLen := s.streamLen } =
        { s with err := 0#4, busy := false, done := true }

/-- R90: the run list of a non-empty sequence under the cap is unique, and `rle` computes it.  R90's input is non-empty;
for the empty sequence, which no command has, that there is no run is the model's choice (log 14). -/
def Obligations.RleComputesTheOnlyRunList : Prop :=
  ∀ (seq : List Byte) (runs : List Run), IsRunListOf runs seq ↔ runs = rleRuns seq

/-- R93: `rle` of `m` copies of `v` is `m div 255` records `[v, 255]` and, when 255 does not divide `m`, one record
`[v, m mod 255]`; in particular 256 copies give `[v, 255, v, 1]`. -/
def Obligations.RleBoundaryLaw : Prop :=
  (∀ (v : Byte) (m : Nat), 1 ≤ m →
    rle (List.replicate m v) =
      (List.replicate (m / 255) [v, 255#8]).flatten ++
        (if m % 255 = 0 then [] else [v, BitVec.ofNat 8 (m % 255)])) ∧
  ∀ v : Byte, rle (List.replicate 256 v) = [v, 255#8, v, 1#8]

/-- R104: the sizes of both encoders' artifacts: even, RLE between 2058 and 524288 bytes, bit-plane between 16464 and
4194304, so neither overflows STREAM. -/
def Obligations.ArtifactSizeBounds : Prop :=
  ∀ s : State, s.imgW = 512#16 → s.imgH = 512#16 →
    (∃ t, exec .rleEnc s = .next t ∧ t.err = 0#4 ∧ t.streamLen.toNat % 2 = 0 ∧
      2058 ≤ t.streamLen.toNat ∧ t.streamLen.toNat ≤ 524288) ∧
    (∃ t, exec .bpEnc s = .next t ∧ t.err = 0#4 ∧ t.streamLen.toNat % 2 = 0 ∧
      16464 ≤ t.streamLen.toNat ∧ t.streamLen.toNat ≤ 4194304)

/-- R92: RLE_DEC accepts any records with lengths in 1..255 that sum to NPIX, maximal or not, and writes exactly the
samples they stand for and the dimensions 512 by 512; all else is unchanged. -/
def Obligations.RleDecWritesTheSamplesOfTheRecords : Prop :=
  ∀ (s : State) (runs : List Run),
    StreamHolds s runs → (∀ r ∈ runs, r.wellFormed = true) →
    (expandRuns runs).length = Config.geometry.npix →
    ∃ t, exec .rleDec s = .next t ∧
      rasterList t = expandRuns runs ∧
      t.imgW = 512#16 ∧ t.imgH = 512#16 ∧
      (∀ i, Config.geometry.npix ≤ i → t.rasterAt i = s.rasterAt i) ∧
      { t with raster := s.raster, imgW := s.imgW, imgH := s.imgH } =
        { s with err := 0#4, busy := false, done := true }

/-- R94: RLE_ENC and then RLE_DEC, whatever else the host does in between as long as STREAM and STREAM_LEN stay, both
complete with `ERR = 0` and leave RASTER with its initial content. -/
def Obligations.RleRoundTrip : Prop :=
  ∀ s : State, s.imgW = 512#16 → s.imgH = 512#16 →
    ∃ t, exec .rleEnc s = .next t ∧ t.err = 0#4 ∧
      ∀ t' : State, t'.streamLen = t.streamLen →
        (∀ j, j < t.streamLen.toNat → t'.streamAt j = t.streamAt j) →
        ∃ u, exec .rleDec t' = .next u ∧ u.err = 0#4 ∧ rasterList u = rasterList s

/-! ### Bit-planes (41_bitplane.md) -/

/-- R100: each plane symbol is 0 or `2^p`, and a sample is the sum of its eight plane symbols. -/
def Obligations.SampleIsTheSumOfItsPlanes : Prop :=
  ∀ b : Byte,
    (∀ p, p < 8 → planeSymbol p b = 0#8 ∨ (planeSymbol p b).toNat = 2 ^ p) ∧
    ((List.range 8).map fun p => (planeSymbol p b).toNat).sum = b.toNat

/-- R101: BP_ENC on a declared 512 by 512 raster succeeds: STREAM holds the run lists of planes 0 to 7, each encoded on
its own under the 255 cap with the raw mask as symbol, in order and with nothing between; all else is unchanged. -/
def Obligations.BpEncWritesTheRunListsOfThePlanes : Prop :=
  ∀ s : State, s.imgW = 512#16 → s.imgH = 512#16 →
    ∃ t, ∃ runs : Nat → List Run, exec .bpEnc s = .next t ∧
      (∀ p, p < 8 → IsRunListOf (runs p) ((rasterList s).map fun b => b &&& (1#8 <<< p))) ∧
      StreamHolds t ((List.range 8).flatMap runs) ∧
      (∀ j, t.streamLen.toNat ≤ j → t.streamAt j = s.streamAt j) ∧
      { t with stream := s.stream, streamLen := s.streamLen } =
        { s with err := 0#4, busy := false, done := true }

/-- R102: BP_DEC accepts any records with lengths in 1..255 that cover the 8 planes' cells exactly and whose
contributions to each cell sum to at most 255, whatever their symbols; each sample becomes that sum. -/
def Obligations.BpDecAddsTheContributions : Prop :=
  ∀ (s : State) (runs : List Run),
    StreamHolds s runs → (∀ r ∈ runs, r.wellFormed = true) →
    (expandRuns runs).length = 8 * Config.geometry.npix →
    CellSumsFit Config.geometry (expandRuns runs) →
    ∃ t, exec .bpDec s = .next t ∧
      (∀ i, i < Config.geometry.npix → (t.rasterAt i).toNat = cellSum Config.geometry (expandRuns runs) i) ∧
      t.imgW = 512#16 ∧ t.imgH = 512#16 ∧
      (∀ i, Config.geometry.npix ≤ i → t.rasterAt i = s.rasterAt i) ∧
      { t with raster := s.raster, imgW := s.imgW, imgH := s.imgH } =
        { s with err := 0#4, busy := false, done := true }

/-- R103: BP_ENC and then BP_DEC, whatever else the host does in between as long as STREAM and STREAM_LEN stay, both
complete with `ERR = 0` and leave RASTER with its initial content. -/
def Obligations.BitPlaneRoundTrip : Prop :=
  ∀ s : State, s.imgW = 512#16 → s.imgH = 512#16 →
    ∃ t, exec .bpEnc s = .next t ∧ t.err = 0#4 ∧
      ∀ t' : State, t'.streamLen = t.streamLen →
        (∀ j, j < t.streamLen.toNat → t'.streamAt j = t.streamAt j) →
        ∃ u, exec .bpDec t' = .next u ∧ u.err = 0#4 ∧ rasterList u = rasterList s

/-! ### Huffman (42_huffman.md) -/

/-- R111: HIST on a declared 512 by 512 raster succeeds: every FREQ entry becomes the number of samples of that value,
zeros included; the entries sum to NPIX; all else is unchanged. -/
def Obligations.HistCountsEveryValue : Prop :=
  ∀ s : State, s.imgW = 512#16 → s.imgH = 512#16 →
    ∃ t, exec .hist s = .next t ∧
      (∀ v, v < 256 → (t.freqAt v).toNat = (rasterList s).count (BitVec.ofNat 8 v)) ∧
      totalFrequency t = Config.geometry.npix ∧
      { t with freq := s.freq } = { s with err := 0#4, busy := false, done := true }

/-- R113 to R118: on a table that is neither empty nor too large HBUILD succeeds, and the code table is read off a tree
that the merging of R114 and R115 builds from the leaves of R113: `CODE[v]` is the path to the leaf of `v`, and no path is
longer than the number of leaves less one. -/
def Obligations.HbuildReadsCodesOffTheMergedTree : Prop :=
  ∀ s : State, (∃ v, v < 256 ∧ s.freqAt v ≠ 0#32) → totalFrequency s < 2 ^ 32 →
    ∃ t leaves root, exec .hbuild s = .next t ∧ t.err = 0#4 ∧
      LeavesInOrder s leaves ∧ HuffmanMerge leaves.length leaves root ∧
      (∀ v path, v < 256 → (t.codeAt v = some path ↔ PathTo root path (BitVec.ofNat 8 v))) ∧
      ∀ v path, t.codeAt v = some path → path.length ≤ leaves.length - 1

/-- R112, R118, R119: what a successful HBUILD writes and what it leaves: a code exactly for the values of non-zero
frequency, their number in NCODES, the size estimate in EST; all else is unchanged. -/
def Obligations.HbuildWritesTableCountAndEstimate : Prop :=
  ∀ s : State, (∃ v, v < 256 ∧ s.freqAt v ≠ 0#32) → totalFrequency s < 2 ^ 32 →
    ∃ t, exec .hbuild s = .next t ∧
      (∀ v, v < 256 → ((t.codeAt v).isSome = true ↔ s.freqAt v ≠ 0#32)) ∧
      t.ncodes.toNat = distinctValues s ∧
      t.est = ((List.range 256).map fun v => (entryLen (t.codeAt v) + 7) / 8 * (s.freqAt v).toNat).sum ∧
      { t with code := s.code, ncodes := s.ncodes, estLo := s.estLo, estHi := s.estHi } =
        { s with err := 0#4, busy := false, done := true }

/-- R116: one value of non-zero frequency gets the empty code, present; NCODES is 1 and EST 0. -/
def Obligations.SingleValueGetsTheEmptyCode : Prop :=
  ∀ (s : State) (v : Nat), v < 256 → s.freqAt v ≠ 0#32 → (∀ w, w < 256 → w ≠ v → s.freqAt w = 0#32) →
    ∃ t, exec .hbuild s = .next t ∧ t.err = 0#4 ∧
      t.codeAt v = some [] ∧ (∀ w, w < 256 → w ≠ v → t.codeAt w = none) ∧
      t.ncodes.toNat = 1 ∧ t.est = 0

/-- R114, R115, R120: of two values the less frequent gets `0` and the other `1`; at equal frequency the smaller value
gets `0`. -/
def Obligations.TwoValuesGetOneBitEach : Prop :=
  ∀ (s : State) (v w : Nat), v < w → w < 256 → s.freqAt v ≠ 0#32 → s.freqAt w ≠ 0#32 →
    (∀ u, u < 256 → u ≠ v → u ≠ w → s.freqAt u = 0#32) → totalFrequency s < 2 ^ 32 →
    ∃ t, exec .hbuild s = .next t ∧ t.err = 0#4 ∧ t.ncodes.toNat = 2 ∧
      ((s.freqAt v).toNat ≤ (s.freqAt w).toNat → t.codeAt v = some [false] ∧ t.codeAt w = some [true]) ∧
      ((s.freqAt w).toNat < (s.freqAt v).toNat → t.codeAt w = some [false] ∧ t.codeAt v = some [true]) ∧
      t.est = (s.freqAt v).toNat + (s.freqAt w).toNat

/-- R121: with two or more distinct values no code is a prefix of another and every code has a bit; with one the table
has the single empty code. -/
def Obligations.HbuildCodesArePrefixFree : Prop :=
  ∀ s : State, 1 ≤ distinctValues s → totalFrequency s < 2 ^ 32 →
    ∃ t, exec .hbuild s = .next t ∧ t.err = 0#4 ∧
      (2 ≤ distinctValues s →
        (∀ v w a b, v ≠ w → t.codeAt v = some a → t.codeAt w = some b → ¬ a <+: b) ∧
        ∀ v a, t.codeAt v = some a → 1 ≤ a.length) ∧
      (distinctValues s = 1 → ∃ v, t.codeAt v = some [] ∧ ∀ w, w ≠ v → t.codeAt w = none)

/-- R122: the outputs of a successful HBUILD are a function of FREQ alone, and so is whether it succeeds. -/
def Obligations.HbuildDependsOnFreqAlone : Prop :=
  ∀ s s' : State, (∀ v, v < 256 → s.freqAt v = s'.freqAt v) →
    ∃ t t', exec .hbuild s = .next t ∧ exec .hbuild s' = .next t' ∧ t.err = t'.err ∧
      (t.err = 0#4 → t.code = t'.code ∧ t.ncodes = t'.ncodes ∧ t.estLo = t'.estLo ∧ t.estHi = t'.estHi)

/-! ### What commands read and write (20_memory.md R59 to R65) -/

/-- R65, R63: the only locations a command can change, each command by its row of the table; none changes LATCH, CTRL,
HAZ, ERRLOG on success, or anything of the host's. -/
def Obligations.CommandsWriteOnlyTheirOutputs : Prop :=
  ∀ (i : Instr) (s t : State), exec i s = .next t →
    t.latch = s.latch ∧ t.haz = s.haz ∧ t.ie = s.ie ∧ t.epoch = s.epoch ∧ t.draws = s.draws ∧
    t.pending = s.pending ∧ t.returned = s.returned ∧ t.busy = false ∧ t.done = true ∧
    (t.err = 0#4 → t.errlog = s.errlog) ∧
    (i ≠ .rleEnc → i ≠ .bpEnc → t.stream = s.stream ∧ t.streamLen = s.streamLen) ∧
    (i ≠ .rleDec → i ≠ .bpDec → t.raster = s.raster ∧ t.imgW = s.imgW ∧ t.imgH = s.imgH) ∧
    (i ≠ .hist → t.freq = s.freq) ∧
    (i ≠ .hbuild → t.code = s.code ∧ t.ncodes = s.ncodes ∧ t.estLo = s.estLo ∧ t.estHi = s.estHi)

/-- R65, R188: the result of RLE_ENC, BP_ENC and HIST depends on the declared size and the raster alone. -/
def Obligations.RasterCommandsReadOnlySizeAndRaster : Prop :=
  ∀ (i : Instr) (s s' : State), i = .rleEnc ∨ i = .bpEnc ∨ i = .hist →
    s.imgW = s'.imgW → s.imgH = s'.imgH → rasterList s = rasterList s' →
    ∃ t t', exec i s = .next t ∧ exec i s' = .next t' ∧ t.err = t'.err ∧
      (t.err = 0#4 → i ≠ .hist → t.streamLen = t'.streamLen ∧
        ∀ j, j < t.streamLen.toNat → t.streamAt j = t'.streamAt j) ∧
      (t.err = 0#4 → i = .hist → t.freq = t'.freq)

/-- R65, R92: the result of a decoder depends on STREAM_LEN and the bytes before it alone; bytes at STREAM_LEN and above
are never read. -/
def Obligations.DecodersReadOnlyTheArtifact : Prop :=
  ∀ (i : Instr) (s s' : State), i = .rleDec ∨ i = .bpDec →
    s.streamLen = s'.streamLen → (∀ j, j < s.streamLen.toNat → s.streamAt j = s'.streamAt j) →
    ∃ t t', exec i s = .next t ∧ exec i s' = .next t' ∧ t.err = t'.err ∧
      (t.err = 0#4 → rasterList t = rasterList t' ∧ t.imgW = t'.imgW ∧ t.imgH = t'.imgH)

/-- R59, R60, R63: whatever host accesses land between issue and completion, the command's whole effect is the one it
would have had at once; the accesses show in HAZ and in what the port answered, nowhere else. -/
def Obligations.CommandSeesTheStateAtIssue : Prop :=
  ∀ (s : State) (accesses rest : List Event), s.busy = true → (∀ e ∈ accesses, isHostAccess e = true) →
    ∃ t u, core.run (accesses.length + 1) { s with pending := accesses ++ .engine :: rest } = .next t ∧
      step { s with pending := .engine :: rest } = .next u ∧
      t = { u with haz := t.haz, draws := t.draws, returned := t.returned }

/-! ### Invariants (10_state.md R41) -/

/-- R41, R26: every step keeps the flag and error register invariant. -/
def Obligations.EveryStepKeepsFlagsInv : Prop :=
  ∀ s t : State, FlagsInv s → step s = .next t → FlagsInv t

/-- Every step keeps the lists that hold RASTER and STREAM in canonical form and inside their ranges.  The ranges are R35's
and R36's, and that no artifact passes the capacity is R104's; the list form and its strictly rising indices are the model's
choice (log 2). -/
def Obligations.EveryStepKeepsBuffersInv : Prop :=
  ∀ s t : State, BuffersInv s → step s = .next t → BuffersInv t

/-- R41, R38: every step keeps the code table consistent: NCODES counts the present codes, codes are at most 255 bits,
prefix-free, and empty only when alone. -/
def Obligations.EveryStepKeepsCodesInv : Prop :=
  ∀ s t : State, CodesInv s → step s = .next t → CodesInv t

/-- R41: the invariants hold after reset; the list form in that of the buffers is the model's choice (log 2). -/
def Obligations.ResetStateMeetsTheInvariants : Prop :=
  FlagsInv State.reset ∧ BuffersInv State.reset ∧ CodesInv State.reset
end

