-- ==== Sys2Proof/Laws/State.lean ====
section
/-! SUPPORT. One lemma per field per update of State, each true by rfl: what a named operation leaves in each field. -/

namespace Sys2Proof.Machine

/-! ### `issue` -/

@[simp] theorem issue_latch (c : Word) (s : State) : (issue c s).latch = c := rfl
@[simp] theorem issue_busy (c : Word) (s : State) : (issue c s).busy = true := rfl
@[simp] theorem issue_done (c : Word) (s : State) : (issue c s).done = false := rfl
@[simp] theorem issue_haz (c : Word) (s : State) : (issue c s).haz = s.haz := rfl
@[simp] theorem issue_err (c : Word) (s : State) : (issue c s).err = 0#4 := rfl
@[simp] theorem issue_errlog (c : Word) (s : State) : (issue c s).errlog = s.errlog := rfl
@[simp] theorem issue_ie (c : Word) (s : State) : (issue c s).ie = s.ie := rfl
@[simp] theorem issue_imgW (c : Word) (s : State) : (issue c s).imgW = s.imgW := rfl
@[simp] theorem issue_imgH (c : Word) (s : State) : (issue c s).imgH = s.imgH := rfl
@[simp] theorem issue_streamLen (c : Word) (s : State) : (issue c s).streamLen = s.streamLen := rfl
@[simp] theorem issue_ncodes (c : Word) (s : State) : (issue c s).ncodes = s.ncodes := rfl
@[simp] theorem issue_estLo (c : Word) (s : State) : (issue c s).estLo = s.estLo := rfl
@[simp] theorem issue_estHi (c : Word) (s : State) : (issue c s).estHi = s.estHi := rfl
@[simp] theorem issue_raster (c : Word) (s : State) : (issue c s).raster = s.raster := rfl
@[simp] theorem issue_stream (c : Word) (s : State) : (issue c s).stream = s.stream := rfl
@[simp] theorem issue_freq (c : Word) (s : State) : (issue c s).freq = s.freq := rfl
@[simp] theorem issue_code (c : Word) (s : State) : (issue c s).code = s.code := rfl
@[simp] theorem issue_epoch (c : Word) (s : State) : (issue c s).epoch = s.epoch := rfl
@[simp] theorem issue_draws (c : Word) (s : State) : (issue c s).draws = s.draws := rfl
@[simp] theorem issue_pending (c : Word) (s : State) : (issue c s).pending = s.pending := rfl
@[simp] theorem issue_returned (c : Word) (s : State) : (issue c s).returned = s.returned := rfl

/-! ### `takeError` -/

@[simp] theorem takeError_latch (e : CmdError) (s : State) : (takeError e s).latch = s.latch := rfl
@[simp] theorem takeError_busy (e : CmdError) (s : State) : (takeError e s).busy = false := rfl
@[simp] theorem takeError_done (e : CmdError) (s : State) : (takeError e s).done = true := rfl
@[simp] theorem takeError_haz (e : CmdError) (s : State) : (takeError e s).haz = s.haz := rfl
@[simp] theorem takeError_err (e : CmdError) (s : State) : (takeError e s).err = e.code := rfl
@[simp] theorem takeError_errlog (e : CmdError) (s : State) : (takeError e s).errlog = logError s.errlog e := rfl
@[simp] theorem takeError_ie (e : CmdError) (s : State) : (takeError e s).ie = s.ie := rfl
@[simp] theorem takeError_imgW (e : CmdError) (s : State) : (takeError e s).imgW = s.imgW := rfl
@[simp] theorem takeError_imgH (e : CmdError) (s : State) : (takeError e s).imgH = s.imgH := rfl
@[simp] theorem takeError_streamLen (e : CmdError) (s : State) : (takeError e s).streamLen = s.streamLen := rfl
@[simp] theorem takeError_ncodes (e : CmdError) (s : State) : (takeError e s).ncodes = s.ncodes := rfl
@[simp] theorem takeError_estLo (e : CmdError) (s : State) : (takeError e s).estLo = s.estLo := rfl
@[simp] theorem takeError_estHi (e : CmdError) (s : State) : (takeError e s).estHi = s.estHi := rfl
@[simp] theorem takeError_raster (e : CmdError) (s : State) : (takeError e s).raster = s.raster := rfl
@[simp] theorem takeError_stream (e : CmdError) (s : State) : (takeError e s).stream = s.stream := rfl
@[simp] theorem takeError_freq (e : CmdError) (s : State) : (takeError e s).freq = s.freq := rfl
@[simp] theorem takeError_code (e : CmdError) (s : State) : (takeError e s).code = s.code := rfl
@[simp] theorem takeError_epoch (e : CmdError) (s : State) : (takeError e s).epoch = s.epoch := rfl
@[simp] theorem takeError_draws (e : CmdError) (s : State) : (takeError e s).draws = s.draws := rfl
@[simp] theorem takeError_pending (e : CmdError) (s : State) : (takeError e s).pending = s.pending := rfl
@[simp] theorem takeError_returned (e : CmdError) (s : State) : (takeError e s).returned = s.returned := rfl

/-! ### `succeed` -/

@[simp] theorem succeed_latch (s : State) : (succeed s).latch = s.latch := rfl
@[simp] theorem succeed_busy (s : State) : (succeed s).busy = false := rfl
@[simp] theorem succeed_done (s : State) : (succeed s).done = true := rfl
@[simp] theorem succeed_haz (s : State) : (succeed s).haz = s.haz := rfl
@[simp] theorem succeed_err (s : State) : (succeed s).err = 0#4 := rfl
@[simp] theorem succeed_errlog (s : State) : (succeed s).errlog = s.errlog := rfl
@[simp] theorem succeed_ie (s : State) : (succeed s).ie = s.ie := rfl
@[simp] theorem succeed_imgW (s : State) : (succeed s).imgW = s.imgW := rfl
@[simp] theorem succeed_imgH (s : State) : (succeed s).imgH = s.imgH := rfl
@[simp] theorem succeed_streamLen (s : State) : (succeed s).streamLen = s.streamLen := rfl
@[simp] theorem succeed_ncodes (s : State) : (succeed s).ncodes = s.ncodes := rfl
@[simp] theorem succeed_estLo (s : State) : (succeed s).estLo = s.estLo := rfl
@[simp] theorem succeed_estHi (s : State) : (succeed s).estHi = s.estHi := rfl
@[simp] theorem succeed_raster (s : State) : (succeed s).raster = s.raster := rfl
@[simp] theorem succeed_stream (s : State) : (succeed s).stream = s.stream := rfl
@[simp] theorem succeed_freq (s : State) : (succeed s).freq = s.freq := rfl
@[simp] theorem succeed_code (s : State) : (succeed s).code = s.code := rfl
@[simp] theorem succeed_epoch (s : State) : (succeed s).epoch = s.epoch := rfl
@[simp] theorem succeed_draws (s : State) : (succeed s).draws = s.draws := rfl
@[simp] theorem succeed_pending (s : State) : (succeed s).pending = s.pending := rfl
@[simp] theorem succeed_returned (s : State) : (succeed s).returned = s.returned := rfl

/-! ### `setHaz` -/

@[simp] theorem setHaz_latch (s : State) : (setHaz s).latch = s.latch := rfl
@[simp] theorem setHaz_busy (s : State) : (setHaz s).busy = s.busy := rfl
@[simp] theorem setHaz_done (s : State) : (setHaz s).done = s.done := rfl
@[simp] theorem setHaz_haz (s : State) : (setHaz s).haz = true := rfl
@[simp] theorem setHaz_err (s : State) : (setHaz s).err = s.err := rfl
@[simp] theorem setHaz_errlog (s : State) : (setHaz s).errlog = s.errlog := rfl
@[simp] theorem setHaz_ie (s : State) : (setHaz s).ie = s.ie := rfl
@[simp] theorem setHaz_imgW (s : State) : (setHaz s).imgW = s.imgW := rfl
@[simp] theorem setHaz_imgH (s : State) : (setHaz s).imgH = s.imgH := rfl
@[simp] theorem setHaz_streamLen (s : State) : (setHaz s).streamLen = s.streamLen := rfl
@[simp] theorem setHaz_ncodes (s : State) : (setHaz s).ncodes = s.ncodes := rfl
@[simp] theorem setHaz_estLo (s : State) : (setHaz s).estLo = s.estLo := rfl
@[simp] theorem setHaz_estHi (s : State) : (setHaz s).estHi = s.estHi := rfl
@[simp] theorem setHaz_raster (s : State) : (setHaz s).raster = s.raster := rfl
@[simp] theorem setHaz_stream (s : State) : (setHaz s).stream = s.stream := rfl
@[simp] theorem setHaz_freq (s : State) : (setHaz s).freq = s.freq := rfl
@[simp] theorem setHaz_code (s : State) : (setHaz s).code = s.code := rfl
@[simp] theorem setHaz_epoch (s : State) : (setHaz s).epoch = s.epoch := rfl
@[simp] theorem setHaz_draws (s : State) : (setHaz s).draws = s.draws := rfl
@[simp] theorem setHaz_pending (s : State) : (setHaz s).pending = s.pending := rfl
@[simp] theorem setHaz_returned (s : State) : (setHaz s).returned = s.returned := rfl

/-! ### `clearStatus` -/

@[simp] theorem clearStatus_latch (v : Word) (s : State) : (clearStatus v s).latch = s.latch := rfl
@[simp] theorem clearStatus_busy (v : Word) (s : State) : (clearStatus v s).busy = s.busy := rfl
@[simp] theorem clearStatus_done (v : Word) (s : State) : (clearStatus v s).done = (s.done && !v.getLsbD 1) := rfl
@[simp] theorem clearStatus_haz (v : Word) (s : State) : (clearStatus v s).haz = (s.haz && !v.getLsbD 2) := rfl
@[simp] theorem clearStatus_err (v : Word) (s : State) : (clearStatus v s).err = s.err := rfl
@[simp] theorem clearStatus_errlog (v : Word) (s : State) : (clearStatus v s).errlog = s.errlog := rfl
@[simp] theorem clearStatus_ie (v : Word) (s : State) : (clearStatus v s).ie = s.ie := rfl
@[simp] theorem clearStatus_imgW (v : Word) (s : State) : (clearStatus v s).imgW = s.imgW := rfl
@[simp] theorem clearStatus_imgH (v : Word) (s : State) : (clearStatus v s).imgH = s.imgH := rfl
@[simp] theorem clearStatus_streamLen (v : Word) (s : State) : (clearStatus v s).streamLen = s.streamLen := rfl
@[simp] theorem clearStatus_ncodes (v : Word) (s : State) : (clearStatus v s).ncodes = s.ncodes := rfl
@[simp] theorem clearStatus_estLo (v : Word) (s : State) : (clearStatus v s).estLo = s.estLo := rfl
@[simp] theorem clearStatus_estHi (v : Word) (s : State) : (clearStatus v s).estHi = s.estHi := rfl
@[simp] theorem clearStatus_raster (v : Word) (s : State) : (clearStatus v s).raster = s.raster := rfl
@[simp] theorem clearStatus_stream (v : Word) (s : State) : (clearStatus v s).stream = s.stream := rfl
@[simp] theorem clearStatus_freq (v : Word) (s : State) : (clearStatus v s).freq = s.freq := rfl
@[simp] theorem clearStatus_code (v : Word) (s : State) : (clearStatus v s).code = s.code := rfl
@[simp] theorem clearStatus_epoch (v : Word) (s : State) : (clearStatus v s).epoch = s.epoch := rfl
@[simp] theorem clearStatus_draws (v : Word) (s : State) : (clearStatus v s).draws = s.draws := rfl
@[simp] theorem clearStatus_pending (v : Word) (s : State) : (clearStatus v s).pending = s.pending := rfl
@[simp] theorem clearStatus_returned (v : Word) (s : State) : (clearStatus v s).returned = s.returned := rfl

/-! ### `writeArtifact` -/

@[simp] theorem writeArtifact_latch (out : List Byte) (s : State) : (writeArtifact out s).latch = s.latch := rfl
@[simp] theorem writeArtifact_busy (out : List Byte) (s : State) : (writeArtifact out s).busy = s.busy := rfl
@[simp] theorem writeArtifact_done (out : List Byte) (s : State) : (writeArtifact out s).done = s.done := rfl
@[simp] theorem writeArtifact_haz (out : List Byte) (s : State) : (writeArtifact out s).haz = s.haz := rfl
@[simp] theorem writeArtifact_err (out : List Byte) (s : State) : (writeArtifact out s).err = s.err := rfl
@[simp] theorem writeArtifact_errlog (out : List Byte) (s : State) : (writeArtifact out s).errlog = s.errlog := rfl
@[simp] theorem writeArtifact_ie (out : List Byte) (s : State) : (writeArtifact out s).ie = s.ie := rfl
@[simp] theorem writeArtifact_imgW (out : List Byte) (s : State) : (writeArtifact out s).imgW = s.imgW := rfl
@[simp] theorem writeArtifact_imgH (out : List Byte) (s : State) : (writeArtifact out s).imgH = s.imgH := rfl
@[simp] theorem writeArtifact_streamLen (out : List Byte) (s : State) : (writeArtifact out s).streamLen = BitVec.ofNat 32 out.length := rfl
@[simp] theorem writeArtifact_ncodes (out : List Byte) (s : State) : (writeArtifact out s).ncodes = s.ncodes := rfl
@[simp] theorem writeArtifact_estLo (out : List Byte) (s : State) : (writeArtifact out s).estLo = s.estLo := rfl
@[simp] theorem writeArtifact_estHi (out : List Byte) (s : State) : (writeArtifact out s).estHi = s.estHi := rfl
@[simp] theorem writeArtifact_raster (out : List Byte) (s : State) : (writeArtifact out s).raster = s.raster := rfl
@[simp] theorem writeArtifact_stream (out : List Byte) (s : State) : (writeArtifact out s).stream = s.stream.overwrite out := rfl
@[simp] theorem writeArtifact_freq (out : List Byte) (s : State) : (writeArtifact out s).freq = s.freq := rfl
@[simp] theorem writeArtifact_code (out : List Byte) (s : State) : (writeArtifact out s).code = s.code := rfl
@[simp] theorem writeArtifact_epoch (out : List Byte) (s : State) : (writeArtifact out s).epoch = s.epoch := rfl
@[simp] theorem writeArtifact_draws (out : List Byte) (s : State) : (writeArtifact out s).draws = s.draws := rfl
@[simp] theorem writeArtifact_pending (out : List Byte) (s : State) : (writeArtifact out s).pending = s.pending := rfl
@[simp] theorem writeArtifact_returned (out : List Byte) (s : State) : (writeArtifact out s).returned = s.returned := rfl

/-! ### `writeRaster` -/

@[simp] theorem writeRaster_latch (g : Geometry) (out : List Byte) (s : State) : (writeRaster g out s).latch = s.latch := rfl
@[simp] theorem writeRaster_busy (g : Geometry) (out : List Byte) (s : State) : (writeRaster g out s).busy = s.busy := rfl
@[simp] theorem writeRaster_done (g : Geometry) (out : List Byte) (s : State) : (writeRaster g out s).done = s.done := rfl
@[simp] theorem writeRaster_haz (g : Geometry) (out : List Byte) (s : State) : (writeRaster g out s).haz = s.haz := rfl
@[simp] theorem writeRaster_err (g : Geometry) (out : List Byte) (s : State) : (writeRaster g out s).err = s.err := rfl
@[simp] theorem writeRaster_errlog (g : Geometry) (out : List Byte) (s : State) : (writeRaster g out s).errlog = s.errlog := rfl
@[simp] theorem writeRaster_ie (g : Geometry) (out : List Byte) (s : State) : (writeRaster g out s).ie = s.ie := rfl
@[simp] theorem writeRaster_imgW (g : Geometry) (out : List Byte) (s : State) : (writeRaster g out s).imgW = BitVec.ofNat 16 g.w := rfl
@[simp] theorem writeRaster_imgH (g : Geometry) (out : List Byte) (s : State) : (writeRaster g out s).imgH = BitVec.ofNat 16 g.h := rfl
@[simp] theorem writeRaster_streamLen (g : Geometry) (out : List Byte) (s : State) : (writeRaster g out s).streamLen = s.streamLen := rfl
@[simp] theorem writeRaster_ncodes (g : Geometry) (out : List Byte) (s : State) : (writeRaster g out s).ncodes = s.ncodes := rfl
@[simp] theorem writeRaster_estLo (g : Geometry) (out : List Byte) (s : State) : (writeRaster g out s).estLo = s.estLo := rfl
@[simp] theorem writeRaster_estHi (g : Geometry) (out : List Byte) (s : State) : (writeRaster g out s).estHi = s.estHi := rfl
@[simp] theorem writeRaster_raster (g : Geometry) (out : List Byte) (s : State) : (writeRaster g out s).raster = s.raster.overwrite out := rfl
@[simp] theorem writeRaster_stream (g : Geometry) (out : List Byte) (s : State) : (writeRaster g out s).stream = s.stream := rfl
@[simp] theorem writeRaster_freq (g : Geometry) (out : List Byte) (s : State) : (writeRaster g out s).freq = s.freq := rfl
@[simp] theorem writeRaster_code (g : Geometry) (out : List Byte) (s : State) : (writeRaster g out s).code = s.code := rfl
@[simp] theorem writeRaster_epoch (g : Geometry) (out : List Byte) (s : State) : (writeRaster g out s).epoch = s.epoch := rfl
@[simp] theorem writeRaster_draws (g : Geometry) (out : List Byte) (s : State) : (writeRaster g out s).draws = s.draws := rfl
@[simp] theorem writeRaster_pending (g : Geometry) (out : List Byte) (s : State) : (writeRaster g out s).pending = s.pending := rfl
@[simp] theorem writeRaster_returned (g : Geometry) (out : List Byte) (s : State) : (writeRaster g out s).returned = s.returned := rfl

/-! ### `writeTable` -/

@[simp] theorem writeTable_latch (table : List (Byte × List Bool)) (s : State) : (writeTable table s).latch = s.latch := rfl
@[simp] theorem writeTable_busy (table : List (Byte × List Bool)) (s : State) : (writeTable table s).busy = s.busy := rfl
@[simp] theorem writeTable_done (table : List (Byte × List Bool)) (s : State) : (writeTable table s).done = s.done := rfl
@[simp] theorem writeTable_haz (table : List (Byte × List Bool)) (s : State) : (writeTable table s).haz = s.haz := rfl
@[simp] theorem writeTable_err (table : List (Byte × List Bool)) (s : State) : (writeTable table s).err = s.err := rfl
@[simp] theorem writeTable_errlog (table : List (Byte × List Bool)) (s : State) : (writeTable table s).errlog = s.errlog := rfl
@[simp] theorem writeTable_ie (table : List (Byte × List Bool)) (s : State) : (writeTable table s).ie = s.ie := rfl
@[simp] theorem writeTable_imgW (table : List (Byte × List Bool)) (s : State) : (writeTable table s).imgW = s.imgW := rfl
@[simp] theorem writeTable_imgH (table : List (Byte × List Bool)) (s : State) : (writeTable table s).imgH = s.imgH := rfl
@[simp] theorem writeTable_streamLen (table : List (Byte × List Bool)) (s : State) : (writeTable table s).streamLen = s.streamLen := rfl
@[simp] theorem writeTable_ncodes (table : List (Byte × List Bool)) (s : State) : (writeTable table s).ncodes = BitVec.ofNat 9 (freqSupport s.freq) := rfl
@[simp] theorem writeTable_estLo (table : List (Byte × List Bool)) (s : State) : (writeTable table s).estLo = BitVec.ofNat 32 (sizeEstimate s.freq table % 2 ^ 32) := rfl
@[simp] theorem writeTable_estHi (table : List (Byte × List Bool)) (s : State) : (writeTable table s).estHi = BitVec.ofNat 8 (sizeEstimate s.freq table / 2 ^ 32) := rfl
@[simp] theorem writeTable_raster (table : List (Byte × List Bool)) (s : State) : (writeTable table s).raster = s.raster := rfl
@[simp] theorem writeTable_stream (table : List (Byte × List Bool)) (s : State) : (writeTable table s).stream = s.stream := rfl
@[simp] theorem writeTable_freq (table : List (Byte × List Bool)) (s : State) : (writeTable table s).freq = s.freq := rfl
@[simp] theorem writeTable_code (table : List (Byte × List Bool)) (s : State) : (writeTable table s).code = codeElements table := rfl
@[simp] theorem writeTable_epoch (table : List (Byte × List Bool)) (s : State) : (writeTable table s).epoch = s.epoch := rfl
@[simp] theorem writeTable_draws (table : List (Byte × List Bool)) (s : State) : (writeTable table s).draws = s.draws := rfl
@[simp] theorem writeTable_pending (table : List (Byte × List Bool)) (s : State) : (writeTable table s).pending = s.pending := rfl
@[simp] theorem writeTable_returned (table : List (Byte × List Bool)) (s : State) : (writeTable table s).returned = s.returned := rfl

/-! ### `setPending` -/

@[simp] theorem setPending_latch (rest : List Event) (s : State) : (setPending rest s).latch = s.latch := rfl
@[simp] theorem setPending_busy (rest : List Event) (s : State) : (setPending rest s).busy = s.busy := rfl
@[simp] theorem setPending_done (rest : List Event) (s : State) : (setPending rest s).done = s.done := rfl
@[simp] theorem setPending_haz (rest : List Event) (s : State) : (setPending rest s).haz = s.haz := rfl
@[simp] theorem setPending_err (rest : List Event) (s : State) : (setPending rest s).err = s.err := rfl
@[simp] theorem setPending_errlog (rest : List Event) (s : State) : (setPending rest s).errlog = s.errlog := rfl
@[simp] theorem setPending_ie (rest : List Event) (s : State) : (setPending rest s).ie = s.ie := rfl
@[simp] theorem setPending_imgW (rest : List Event) (s : State) : (setPending rest s).imgW = s.imgW := rfl
@[simp] theorem setPending_imgH (rest : List Event) (s : State) : (setPending rest s).imgH = s.imgH := rfl
@[simp] theorem setPending_streamLen (rest : List Event) (s : State) : (setPending rest s).streamLen = s.streamLen := rfl
@[simp] theorem setPending_ncodes (rest : List Event) (s : State) : (setPending rest s).ncodes = s.ncodes := rfl
@[simp] theorem setPending_estLo (rest : List Event) (s : State) : (setPending rest s).estLo = s.estLo := rfl
@[simp] theorem setPending_estHi (rest : List Event) (s : State) : (setPending rest s).estHi = s.estHi := rfl
@[simp] theorem setPending_raster (rest : List Event) (s : State) : (setPending rest s).raster = s.raster := rfl
@[simp] theorem setPending_stream (rest : List Event) (s : State) : (setPending rest s).stream = s.stream := rfl
@[simp] theorem setPending_freq (rest : List Event) (s : State) : (setPending rest s).freq = s.freq := rfl
@[simp] theorem setPending_code (rest : List Event) (s : State) : (setPending rest s).code = s.code := rfl
@[simp] theorem setPending_epoch (rest : List Event) (s : State) : (setPending rest s).epoch = s.epoch := rfl
@[simp] theorem setPending_draws (rest : List Event) (s : State) : (setPending rest s).draws = s.draws := rfl
@[simp] theorem setPending_pending (rest : List Event) (s : State) : (setPending rest s).pending = rest := rfl
@[simp] theorem setPending_returned (rest : List Event) (s : State) : (setPending rest s).returned = s.returned := rfl

/-! ### `resetBlock` -/

@[simp] theorem resetBlock_latch (s : State) : (resetBlock s).latch = 0#32 := rfl
@[simp] theorem resetBlock_busy (s : State) : (resetBlock s).busy = false := rfl
@[simp] theorem resetBlock_done (s : State) : (resetBlock s).done = false := rfl
@[simp] theorem resetBlock_haz (s : State) : (resetBlock s).haz = false := rfl
@[simp] theorem resetBlock_err (s : State) : (resetBlock s).err = 0#4 := rfl
@[simp] theorem resetBlock_errlog (s : State) : (resetBlock s).errlog = 0#16 := rfl
@[simp] theorem resetBlock_ie (s : State) : (resetBlock s).ie = false := rfl
@[simp] theorem resetBlock_imgW (s : State) : (resetBlock s).imgW = 0#16 := rfl
@[simp] theorem resetBlock_imgH (s : State) : (resetBlock s).imgH = 0#16 := rfl
@[simp] theorem resetBlock_streamLen (s : State) : (resetBlock s).streamLen = 0#32 := rfl
@[simp] theorem resetBlock_ncodes (s : State) : (resetBlock s).ncodes = 0#9 := rfl
@[simp] theorem resetBlock_estLo (s : State) : (resetBlock s).estLo = 0#32 := rfl
@[simp] theorem resetBlock_estHi (s : State) : (resetBlock s).estHi = 0#8 := rfl
@[simp] theorem resetBlock_raster (s : State) : (resetBlock s).raster = [] := rfl
@[simp] theorem resetBlock_stream (s : State) : (resetBlock s).stream = [] := rfl
@[simp] theorem resetBlock_freq (s : State) : (resetBlock s).freq = Vector.ofFn fun v : Fin 256 => Config.resetFreq (s.epoch + 1) v := rfl
@[simp] theorem resetBlock_code (s : State) : (resetBlock s).code = Vector.replicate 256 none := rfl
@[simp] theorem resetBlock_epoch (s : State) : (resetBlock s).epoch = s.epoch + 1 := rfl
@[simp] theorem resetBlock_draws (s : State) : (resetBlock s).draws = s.draws := rfl
@[simp] theorem resetBlock_pending (s : State) : (resetBlock s).pending = s.pending := rfl
@[simp] theorem resetBlock_returned (s : State) : (resetBlock s).returned = s.returned := rfl

end Sys2Proof.Machine
end

