-- ==== Sys2Proof/Laws/Memory.lean ====
section
/-! SUPPORT. The laws of a byte space: read after write of one element and of a whole range, and that every operation
keeps the canonical form. -/

namespace Sys2Proof.Machine

/-! ### Reading after writing -/

theorem Memory.get?_set (m : Memory) (i j : Nat) (v : Byte) :
    (m.set i v).get? j = if i = j then some v else m.get? j := by
  induction m with
  | nil => simp [Memory.set, Memory.get?]
  | cons cell rest ih =>
    unfold Memory.set
    split
    · simp [Memory.get?]
    · split
      · subst_vars; simp only [Memory.get?]; split <;> simp_all
      · simp only [Memory.get?, ih]
        split <;> split <;> simp_all

theorem Memory.get?_append (m m' : Memory) (i : Nat) :
    Memory.get? (m ++ m') i = (m.get? i).or (m'.get? i) := by
  induction m with
  | nil => simp [Memory.get?]
  | cons cell rest ih =>
    simp only [List.cons_append, Memory.get?, ih]
    split <;> simp

theorem Memory.get?_filter (m : Memory) (n i : Nat) :
    Memory.get? (m.filter fun cell => n ≤ cell.1) i = if n ≤ i then m.get? i else none := by
  induction m with
  | nil => simp [Memory.get?]
  | cons cell rest ih =>
    by_cases keep : n ≤ cell.1 <;> simp only [List.filter_cons, keep, decide_true, decide_false,
      if_true, Bool.false_eq_true, if_false, Memory.get?, ih] <;> (repeat' split) <;> simp_all

theorem Memory.get?_mapIdx (vals : List Byte) (start i : Nat) :
    Memory.get? (vals.mapIdx fun k v => (start + k, v)) i = if start ≤ i then vals[i - start]? else none := by
  induction vals generalizing start with
  | nil => simp [Memory.get?]
  | cons v rest ih =>
    simp only [List.mapIdx_cons, Memory.get?, Nat.add_zero]
    have shift : (rest.mapIdx fun k v => (start + (k + 1), v)) = rest.mapIdx fun k v => (start + 1 + k, v) := by
      congr 1; funext k v; simp; omega
    rw [shift, ih]
    by_cases same : start = i
    · simp [same]
    · by_cases le : start ≤ i
      · have : start + 1 ≤ i := by omega
        obtain ⟨d, rfl⟩ := Nat.exists_eq_add_of_le this
        have e1 : start + 1 + d - (start + 1) = d := by omega
        have e2 : start + 1 + d - start = d + 1 := by omega
        simp [le, same, this, e1, e2]
      · have : ¬ start + 1 ≤ i := by omega
        simp [le, same, this]

theorem Memory.get?_overwrite (m : Memory) (vals : List Byte) (i : Nat) :
    (m.overwrite vals).get? i = if h : i < vals.length then some vals[i] else m.get? i := by
  have written := Memory.get?_mapIdx vals 0 i
  simp only [Nat.zero_add, Nat.zero_le, if_true, Nat.sub_zero] at written
  rw [Memory.overwrite, Memory.get?_append, written, Memory.get?_filter]
  by_cases h : i < vals.length
  · simp [h]
  · simp [h, Nat.le_of_not_lt h]

/-! ### The canonical form -/

theorem Memory.wf_cons (size : Nat) (cell : Host.Cell) (rest : Memory) :
    Memory.wf size (cell :: rest) = true ↔
      cell.1 < size ∧ (∀ c ∈ rest, cell.1 < c.1) ∧ Memory.wf size rest = true := by
  induction rest generalizing cell with
  | nil => simp [Memory.wf]
  | cons next rest ih =>
    simp only [Memory.wf, Bool.and_eq_true, decide_eq_true_eq, ih next, List.mem_cons, forall_eq_or_imp]
    constructor
    · rintro ⟨lt, inside, above, ok⟩
      exact ⟨by omega, ⟨lt, fun c hc => Nat.lt_trans lt (above c hc)⟩, inside, above, ok⟩
    · rintro ⟨-, ⟨lt, -⟩, inside, above, ok⟩
      exact ⟨lt, inside, above, ok⟩

@[simp] theorem Memory.wf_nil (size : Nat) : Memory.wf size [] = true := rfl

/-- The reset state's byte spaces are in canonical form (nothing is listed). -/
theorem Memory.wf_reset (size : Nat) :
    Memory.wf size State.reset.raster = true ∧ Memory.wf size State.reset.stream = true := ⟨rfl, rfl⟩

theorem Memory.wf_mem_lt {size : Nat} {m : Memory} (ok : Memory.wf size m = true) {c : Host.Cell} (mem : c ∈ m) :
    c.1 < size := by
  induction m with
  | nil => simp at mem
  | cons cell rest ih =>
    obtain ⟨inside, -, okRest⟩ := (Memory.wf_cons _ _ _).1 ok
    rcases List.mem_cons.1 mem with rfl | mem
    · exact inside
    · exact ih okRest mem

theorem Memory.mem_set {m : Memory} {i : Nat} {v : Byte} {c : Host.Cell} (mem : c ∈ m.set i v) :
    c.1 = i ∨ c ∈ m := by
  induction m with
  | nil => simp [Memory.set] at mem; simp [mem]
  | cons cell rest ih =>
    unfold Memory.set at mem
    split at mem
    · rcases List.mem_cons.1 mem with rfl | mem
      · exact .inl rfl
      · exact .inr mem
    · split at mem
      · rcases List.mem_cons.1 mem with rfl | mem
        · exact .inl rfl
        · exact .inr (List.mem_cons_of_mem _ mem)
      · rcases List.mem_cons.1 mem with rfl | mem
        · exact .inr List.mem_cons_self
        · exact (ih mem).imp_right (List.mem_cons_of_mem _)

/-- Writing one element inside the range keeps the canonical form. -/
theorem Memory.wf_set {size : Nat} {m : Memory} (ok : Memory.wf size m = true) {i : Nat} (inside : i < size) (v : Byte) :
    Memory.wf size (m.set i v) = true := by
  induction m with
  | nil => simpa [Memory.set, Memory.wf] using inside
  | cons cell rest ih =>
    obtain ⟨cellInside, above, okRest⟩ := (Memory.wf_cons _ _ _).1 ok
    unfold Memory.set
    split
    · rename_i lt
      refine (Memory.wf_cons _ _ _).2 ⟨inside, fun c mem => ?_, ok⟩
      rcases List.mem_cons.1 mem with rfl | mem
      · exact lt
      · exact Nat.lt_trans lt (above c mem)
    · split
      · rename_i eq
        exact (Memory.wf_cons _ _ _).2 ⟨inside, fun c mem => by simpa [eq] using above c mem, okRest⟩
      · refine (Memory.wf_cons _ _ _).2 ⟨cellInside, fun c mem => ?_, ih okRest⟩
        rcases Memory.mem_set mem with eq | mem
        · omega
        · exact above c mem

theorem Memory.wf_filter {size : Nat} {m : Memory} (ok : Memory.wf size m = true) (p : Host.Cell → Bool) :
    Memory.wf size (m.filter p) = true := by
  induction m with
  | nil => rfl
  | cons cell rest ih =>
    obtain ⟨cellInside, above, okRest⟩ := (Memory.wf_cons _ _ _).1 ok
    rw [List.filter_cons]
    split
    · exact (Memory.wf_cons _ _ _).2
        ⟨cellInside, fun c mem => above c (List.mem_filter.1 mem).1, ih okRest⟩
    · exact ih okRest

theorem Memory.wf_mapIdx_append {size : Nat} (vals : List Byte) (start : Nat) {m : Memory}
    (fits : start + vals.length ≤ size) (ok : Memory.wf size m = true) (above : ∀ c ∈ m, start + vals.length ≤ c.1) :
    Memory.wf size ((vals.mapIdx fun k v => (start + k, v)) ++ m) = true := by
  induction vals generalizing start with
  | nil => simpa using ok
  | cons v rest ih =>
    simp only [List.length_cons] at fits above
    have shift : (rest.mapIdx fun k v => (start + (k + 1), v)) = rest.mapIdx fun k v => (start + 1 + k, v) := by
      congr 1; funext k v; simp; omega
    rw [List.mapIdx_cons, shift, List.cons_append]
    refine (Memory.wf_cons _ _ _).2 ⟨by simp; omega, fun c mem => ?_, ih (start + 1) (by omega)
      fun c mem => by have := above c mem; omega⟩
    rcases List.mem_append.1 mem with mem | mem
    · obtain ⟨k, hk, rfl⟩ := List.mem_mapIdx.1 mem
      simp; omega
    · have := above c mem
      simp; omega

/-- Writing a range that fits keeps the canonical form. -/
theorem Memory.wf_overwrite {size : Nat} {m : Memory} (ok : Memory.wf size m = true) {vals : List Byte}
    (fits : vals.length ≤ size) : Memory.wf size (m.overwrite vals) = true := by
  have := Memory.wf_mapIdx_append vals 0 (m := m.filter fun cell => vals.length ≤ cell.1) (by omega)
    (Memory.wf_filter ok _) fun c mem => by simpa using (List.mem_filter.1 mem).2
  simpa [Memory.overwrite] using this

/-! ### Reading a range -/

@[simp] theorem Memory.length_readRange (background : Nat → Byte) (m : Memory) (n : Nat) :
    (m.readRange background n).length = n := by simp [Memory.readRange]

theorem Memory.getElem_readRange (background : Nat → Byte) (m : Memory) (n i : Nat)
    (h : i < (m.readRange background n).length) :
    (m.readRange background n)[i] = (m.get? i).getD (background i) := by simp [Memory.readRange]

/-- `samples` is RASTER read element by element in scan order. -/
theorem samples_eq_map (g : Geometry) (s : State) : samples g s = (List.range g.npix).map s.rasterAt := rfl

/-- `streamBytes` is STREAM read element by element. -/
theorem streamBytes_eq_map (s : State) (n : Nat) : streamBytes s n = (List.range n).map s.streamAt := rfl

theorem streamAt_writeArtifact (out : List Byte) (s : State) (j : Nat) :
    (writeArtifact out s).streamAt j = if h : j < out.length then out[j] else s.streamAt j := by
  simp only [State.streamAt, writeArtifact_stream, writeArtifact_epoch, Memory.get?_overwrite]
  split <;> rfl

theorem rasterAt_writeRaster (g : Geometry) (out : List Byte) (s : State) (i : Nat) :
    (writeRaster g out s).rasterAt i = if h : i < out.length then out[i] else s.rasterAt i := by
  simp only [State.rasterAt, writeRaster_raster, writeRaster_epoch, Memory.get?_overwrite]
  split <;> rfl

theorem samples_writeRaster (g : Geometry) (out : List Byte) (s : State) (full : out.length = g.npix) :
    samples g (writeRaster g out s) = out := by
  apply List.ext_getElem
  · simp [samples, full]
  · intro i h h'
    simp only [samples_eq_map, List.getElem_map, List.getElem_range, rasterAt_writeRaster, h', dite_true]

end Sys2Proof.Machine
end

