-- ==== Sys2Proof/Laws/Rle.lean ====
section
/-! SUPPORT. The laws of run lists and of `rle` (40_rle.md R90): what the encoder's loop computes, that a sequence has
one run list under the cap, and that records read back from an artifact are the records written. -/

namespace Sys2Proof.Machine

/-! ### Run lists -/

@[simp] theorem expandRuns_nil : expandRuns [] = [] := rfl

@[simp] theorem expandRuns_cons (r : Run) (rest : List Run) :
    expandRuns (r :: rest) = List.replicate r.length r.symbol ++ expandRuns rest := rfl

@[simp] theorem expandRuns_append (a b : List Run) : expandRuns (a ++ b) = expandRuns a ++ expandRuns b := by
  simp [expandRuns]

theorem length_expandRuns (runs : List Run) : (expandRuns runs).length = (runs.map Run.length).sum := by
  induction runs with
  | nil => rfl
  | cons r rest ih => simp [ih]

theorem Run.wellFormed_iff (r : Run) : r.wellFormed = true ↔ 1 ≤ r.length ∧ r.length ≤ 255 := by
  simp [Run.wellFormed]

/-- Every run stands for at least one sample. -/
theorem length_le_expandRuns {runs : List Run} (legal : ∀ r ∈ runs, 1 ≤ r.length) :
    runs.length ≤ (expandRuns runs).length := by
  induction runs with
  | nil => simp
  | cons r rest ih =>
    have := legal r List.mem_cons_self
    have := ih fun q mem => legal q (List.mem_cons_of_mem _ mem)
    simp; omega

/-- Every run stands for at most 255 samples. -/
theorem expandRuns_length_le {runs : List Run} (legal : ∀ r ∈ runs, r.length ≤ 255) :
    (expandRuns runs).length ≤ 255 * runs.length := by
  induction runs with
  | nil => simp
  | cons r rest ih =>
    have := legal r List.mem_cons_self
    have := ih fun q mem => legal q (List.mem_cons_of_mem _ mem)
    simp; omega

/-! ### The encoder's loop -/

/-- The loop of `rle` written as the recursion it computes: the runs of `rest` after a current run. -/
def runsFrom (symbol : Byte) (length : Nat) : List Byte → List Run
  | [] => [⟨symbol, length⟩]
  | sample :: rest =>
    if sample ≠ symbol ∨ length = 255 then ⟨symbol, length⟩ :: runsFrom sample 1 rest
    else runsFrom symbol (length + 1) rest

theorem rleLoop_eq (rest : List Byte) (symbol : Byte) (length : Nat) (out : List Run) :
    (rleLoop rest symbol length out).reverse = out.reverse ++ runsFrom symbol length rest := by
  induction rest generalizing symbol length out with
  | nil => simp [rleLoop, runsFrom]
  | cons sample rest ih =>
    by_cases closes : sample ≠ symbol ∨ length = 255
    · rw [rleLoop, runsFrom, if_pos closes, if_pos (by exact closes), ih]
      simp
    · rw [rleLoop, runsFrom, if_neg closes, if_neg (by exact closes), ih]

theorem rleRuns_cons (sample : Byte) (rest : List Byte) : rleRuns (sample :: rest) = runsFrom sample 1 rest := by
  simp [rleRuns, rleLoop_eq]

theorem expandRuns_runsFrom (symbol : Byte) (length : Nat) (rest : List Byte) :
    expandRuns (runsFrom symbol length rest) = List.replicate length symbol ++ rest := by
  induction rest generalizing symbol length with
  | nil => simp [runsFrom]
  | cons sample rest ih =>
    simp only [runsFrom]
    split
    · simp [ih]
    · rename_i same
      obtain rfl : sample = symbol := Classical.not_not.1 fun h => same (.inl h)
      simp [ih, List.replicate_succ']

theorem wellFormed_runsFrom {symbol : Byte} {length : Nat} {rest : List Byte} (lo : 1 ≤ length) (hi : length ≤ 255) :
    ∀ r ∈ runsFrom symbol length rest, r.wellFormed = true := by
  induction rest generalizing symbol length with
  | nil => simp [runsFrom, Run.wellFormed_iff, lo, hi]
  | cons sample rest ih =>
    simp only [runsFrom]
    split
    · intro r mem
      rcases List.mem_cons.1 mem with rfl | mem
      · exact (Run.wellFormed_iff _).2 ⟨lo, hi⟩
      · exact ih (by omega) (by omega) r mem
    · exact ih (by omega) (by omega)

/-- The first run of a recursion step: the current symbol, at least the current length. -/
theorem runsFrom_head (symbol : Byte) (length : Nat) (rest : List Byte) :
    ∃ n tail, runsFrom symbol length rest = ⟨symbol, n⟩ :: tail := by
  induction rest generalizing length with
  | nil => exact ⟨_, _, rfl⟩
  | cons sample rest ih =>
    simp only [runsFrom]
    split
    · exact ⟨_, _, rfl⟩
    · exact ih _

theorem maximalRuns_runsFrom (symbol : Byte) (length : Nat) (rest : List Byte) :
    MaximalRuns (runsFrom symbol length rest) := by
  induction rest generalizing symbol length with
  | nil => simp [runsFrom, MaximalRuns]
  | cons sample rest ih =>
    simp only [runsFrom]
    split
    · rename_i closes
      have tailOk := ih sample 1
      obtain ⟨n, tail, eq⟩ := runsFrom_head sample 1 rest
      rw [eq] at tailOk ⊢
      exact ⟨fun same => closes.resolve_left (by simpa using same.symm), tailOk⟩
    · exact ih _ _

/-- `rle` computes a run list of its input under the cap. -/
theorem isRunListOf_rleRuns (seq : List Byte) : IsRunListOf (rleRuns seq) seq := by
  cases seq with
  | nil => simp [IsRunListOf, rleRuns, MaximalRuns]
  | cons sample rest =>
    rw [rleRuns_cons]
    refine ⟨wellFormed_runsFrom (by omega) (by omega), maximalRuns_runsFrom _ _ _, ?_⟩
    simp [expandRuns_runsFrom]

/-! ### Serialising and reading back -/

@[simp] theorem serialise_nil : serialise [] = [] := rfl

@[simp] theorem serialise_cons (r : Run) (rest : List Run) :
    serialise (r :: rest) = r.symbol :: BitVec.ofNat 8 r.length :: serialise rest := rfl

@[simp] theorem serialise_append (a b : List Run) : serialise (a ++ b) = serialise a ++ serialise b := by
  simp [serialise]

@[simp] theorem length_serialise (runs : List Run) : (serialise runs).length = 2 * runs.length := by
  induction runs with
  | nil => rfl
  | cons r rest ih => simp [ih]; omega

theorem serialise_getElem? (runs : List Run) (k : Nat) (h : k < runs.length) :
    (serialise runs)[2 * k]? = some runs[k].symbol ∧
      (serialise runs)[2 * k + 1]? = some (BitVec.ofNat 8 runs[k].length) := by
  induction runs generalizing k with
  | nil => simp at h
  | cons r rest ih =>
    cases k with
    | zero => simp
    | succ k =>
      have e : 2 * (k + 1) = 2 * k + 1 + 1 := by omega
      simpa [e] using ih k (by simpa using h)

/-- What an encoder writes holds the records it was made from. -/
theorem streamHolds_writeArtifact (runs : List Run) (s : State) (legal : ∀ r ∈ runs, r.length ≤ 255)
    (fits : 2 * runs.length < 2 ^ 32) : StreamHolds (writeArtifact (serialise runs) s) runs := by
  refine ⟨by simpa using fits, fun k h => ?_⟩
  obtain ⟨symbol, length⟩ := serialise_getElem? runs k h
  obtain ⟨h0, e0⟩ := List.getElem?_eq_some_iff.1 symbol
  obtain ⟨h1, e1⟩ := List.getElem?_eq_some_iff.1 length
  rw [streamAt_writeArtifact, streamAt_writeArtifact, dif_pos h0, dif_pos h1, e0, e1]
  have := legal _ (List.getElem_mem h)
  exact ⟨rfl, by simp; omega⟩

theorem parseRuns_eq (bytes : List Byte) (found : List Run) :
    parseRuns bytes found = found.reverse ++ parseRuns bytes [] :=
  match bytes with
  | [] => by simp [parseRuns]
  | [_] => by simp [parseRuns]
  | symbol :: length :: rest => by
    rw [parseRuns, parseRuns, parseRuns_eq rest (_ :: found), parseRuns_eq rest [_]]
    simp

/-- The records a decoder reads from the bytes of an artifact with an even number of bytes. -/
theorem parseRuns_cons (symbol length : Byte) (rest : List Byte) :
    parseRuns (symbol :: length :: rest) [] = ⟨symbol, length.toNat⟩ :: parseRuns rest [] := by
  rw [parseRuns, parseRuns_eq]; rfl

theorem parseRuns_eq_of_getElem? (bytes : List Byte) (runs : List Run) (len : bytes.length = 2 * runs.length)
    (holds : ∀ k (h : k < runs.length), bytes[2 * k]? = some runs[k].symbol ∧
      (bytes[2 * k + 1]?).map BitVec.toNat = some runs[k].length) : parseRuns bytes [] = runs := by
  induction runs generalizing bytes with
  | nil =>
    have : bytes = [] := List.eq_nil_of_length_eq_zero (by simpa using len)
    subst this; rfl
  | cons r rest ih =>
    match bytes, len with
    | symbol :: length :: more, len =>
      have first := holds 0 (by simp)
      simp at first
      rw [parseRuns_cons, ih more (by simp at len; omega) fun k h => ?_, first.1, first.2]
      have next := holds (k + 1) (by simpa using h)
      have e : 2 * (k + 1) = 2 * k + 1 + 1 := by omega
      simpa only [e, List.getElem?_cons_succ, List.getElem_cons_succ] using next

/-- A decoder reads the records STREAM holds. -/
theorem streamRuns_of_streamHolds {s : State} {runs : List Run} (holds : StreamHolds s runs) : streamRuns s = runs := by
  obtain ⟨len, bytes⟩ := holds
  refine parseRuns_eq_of_getElem? _ _ (by simp [streamBytes, len]) fun k h => ?_
  have h0 : 2 * k < 2 * runs.length := by omega
  have h1 : 2 * k + 1 < 2 * runs.length := by omega
  simp [streamBytes_eq_map, len, h0, h1, bytes k h]

/-! ### The decoder's loop -/

/-- Records with legal lengths that do not pass the end are taken over one by one. -/
theorem rleDecLoop_append (npix : Nat) (good rest : List Run) (c : Nat) (emitted : List Byte)
    (legal : ∀ r ∈ good, 1 ≤ r.length) (fits : c + (expandRuns good).length ≤ npix) :
    rleDecLoop npix (good ++ rest) c emitted =
      rleDecLoop npix rest (c + (expandRuns good).length) ((expandRuns good).reverse ++ emitted) := by
  induction good generalizing c emitted with
  | nil => simp
  | cons r good ih =>
    have pos := legal r List.mem_cons_self
    simp only [expandRuns_cons, List.length_append, List.length_replicate] at fits
    rw [List.cons_append, rleDecLoop, if_neg (by omega), if_neg (by omega),
      ih _ _ (fun q mem => legal q (List.mem_cons_of_mem _ mem)) (by omega)]
    simp [Nat.add_assoc]

/-- Records that fill the raster exactly decode to the samples they stand for. -/
theorem rleDecLoop_full (npix : Nat) (runs : List Run) (legal : ∀ r ∈ runs, 1 ≤ r.length)
    (full : (expandRuns runs).length = npix) : rleDecLoop npix runs 0 [] = .ok (expandRuns runs) := by
  have := rleDecLoop_append npix runs [] 0 [] legal (by omega)
  simpa [rleDecLoop, full] using this

theorem artifactLengthError_none {g : Geometry} {s : State} {runs : List Run} (holds : StreamHolds s runs)
    (fits : 2 * runs.length ≤ g.streamCap) : artifactLengthError g s = none := by
  simp [artifactLengthError, holds.1, Nat.not_lt.2 fits]

end Sys2Proof.Machine
end

