-- ==== Sys2Proof/Laws/BitPlane.lean ====
section
/-! SUPPORT. The laws of the bit-plane decoder's accumulation (41_bitplane.md R102) and of the plane split (R100). -/

namespace Sys2Proof.Machine

/-! ### Cell sums -/

theorem getD_append_one (seq : List Byte) (b : Byte) (j : Nat) :
    (seq ++ [b]).getD j 0#8 = if j = seq.length then b else seq.getD j 0#8 := by
  rcases Nat.lt_trichotomy j seq.length with h | rfl | h
  · rw [if_neg (by omega), List.getD_eq_getElem?_getD, List.getElem?_append_left h, List.getD_eq_getElem?_getD]
  · simp
  · rw [if_neg (by omega), List.getD_eq_default _ _ (by simp; omega), List.getD_eq_default _ _ (by omega)]

/-- One more symbol adds to the one cell the cursor is at (R102). -/
theorem cellSum_append_one (g : Geometry) (seq : List Byte) (b : Byte) (i : Nat) (room : seq.length < g.cells)
    (inside : i < g.npix) :
    cellSum g (seq ++ [b]) i = cellSum g seq i + if i = seq.length % g.npix then b.toNat else 0 := by
  have npixPos : 0 < g.npix := Nat.pos_of_ne_zero fun h => by simp [h] at inside
  have plane : ∀ p, p < 8 → ((seq ++ [b]).getD (p * g.npix + i) 0#8).toNat =
      (seq.getD (p * g.npix + i) 0#8).toNat +
        if p = seq.length / g.npix ∧ i = seq.length % g.npix then b.toNat else 0 := by
    intro p _
    have split : p * g.npix + i = seq.length ↔ p = seq.length / g.npix ∧ i = seq.length % g.npix := by
      constructor
      · intro e
        rw [← e, Nat.add_comm, Nat.add_mul_div_right _ _ npixPos, Nat.add_mul_mod_self_right,
          Nat.div_eq_of_lt inside, Nat.mod_eq_of_lt inside]
        simp
      · rintro ⟨rfl, rfl⟩
        rw [Nat.mul_comm]; exact Nat.div_add_mod _ _
    rw [getD_append_one]
    by_cases here : p * g.npix + i = seq.length
    · rw [if_pos here, if_pos (split.1 here)]; simp [here]
    · rw [if_neg here, if_neg (fun h => here (split.2 h))]; simp
  have row : seq.length / g.npix < 8 := by
    rw [Nat.div_lt_iff_lt_mul npixPos]; simpa [Geometry.cells, Config.nplanes] using room
  have planes : ((List.range 8).map fun p => ((seq ++ [b]).getD (p * g.npix + i) 0#8).toNat) =
      (List.range 8).map fun p => (seq.getD (p * g.npix + i) 0#8).toNat +
        if p = seq.length / g.npix ∧ i = seq.length % g.npix then b.toNat else 0 :=
    List.map_congr_left fun p mem => plane p (List.mem_range.1 mem)
  rw [cellSum, planes, List.sum_map_add, cellSum]
  congr 1
  by_cases here : i = seq.length % g.npix
  · rw [if_pos here]
    generalize seq.length / g.npix = q at row
    simp only [← here, and_true]
    interval_cases q <;> simp [List.range_succ]
  · rw [if_neg here]
    simp [here]

theorem cellSum_le_append_one (g : Geometry) (seq : List Byte) (b : Byte) (i : Nat) :
    cellSum g seq i ≤ cellSum g (seq ++ [b]) i := by
  refine List.sum_le_sum fun p _ => ?_
  rw [getD_append_one]
  split
  · rename_i h; simp [h]
  · exact Nat.le_refl _

/-- Sums that fit fit for every prefix. -/
theorem CellSumsFit.prefix {g : Geometry} {seq more : List Byte} (fits : CellSumsFit g (seq ++ more)) :
    CellSumsFit g seq := by
  induction more using List.reverseRecOn with
  | nil => simpa using fits
  | append_singleton more b ih =>
    refine ih fun i inside => Nat.le_trans (cellSum_le_append_one g _ b i) ?_
    simpa using fits i inside

/-! ### The accumulators -/

/-- The accumulators hold the cell sums of the symbols `seq` read so far. -/
def AccHolds (g : Geometry) (seq : List Byte) (acc : Array Nat) : Prop :=
  acc.size = g.npix ∧ ∀ i, i < g.npix → acc.getD i 0 = cellSum g seq i

theorem accHolds_start (g : Geometry) : AccHolds g [] (Array.replicate g.npix 0) := by
  refine ⟨by simp, fun i inside => ?_⟩
  simp [cellSum, Array.getD, inside]

theorem mod_npix_lt {g : Geometry} {c : Nat} (room : c < g.cells) : c % g.npix < g.npix := by
  refine Nat.mod_lt _ (Nat.pos_of_ne_zero fun h => ?_)
  simp [Geometry.cells, h] at room

theorem accHolds_step {g : Geometry} {seq : List Byte} {acc : Array Nat} (holds : AccHolds g seq acc) (b : Byte)
    (room : seq.length < g.cells) :
    AccHolds g (seq ++ [b])
      (acc.setIfInBounds (seq.length % g.npix) (acc.getD (seq.length % g.npix) 0 + b.toNat)) := by
  obtain ⟨size, sums⟩ := holds
  refine ⟨by simpa using size, fun i inside => ?_⟩
  rw [cellSum_append_one g seq b i room inside, ← sums i inside]
  by_cases here : i = seq.length % g.npix
  · subst here; simp [Array.getD, size, inside]
  · simp [Array.getD, size, inside, here, Ne.symm here]

/-- One repetition that neither overruns nor exceeds 255. -/
theorem bpRepeat_succ {g : Geometry} {seq : List Byte} {acc : Array Nat} (holds : AccHolds g seq acc) (b : Byte) (k : Nat)
    (room : seq.length < g.cells) (fits : cellSum g (seq ++ [b]) (seq.length % g.npix) ≤ 255) :
    bpRepeat g b.toNat (k + 1) seq.length acc =
      bpRepeat g b.toNat k (seq ++ [b]).length
        (acc.setIfInBounds (seq.length % g.npix) (acc.getD (seq.length % g.npix) 0 + b.toNat)) := by
  have inside := mod_npix_lt room
  rw [cellSum_append_one g seq b _ room inside, if_pos rfl, ← holds.2 _ inside] at fits
  rw [bpRepeat, if_neg (by omega)]
  simp only [if_neg (Nat.not_lt.2 fits), List.length_append, List.length_singleton]

/-- Repetitions that neither overrun nor exceed 255 are added one by one; the rest of the record follows. -/
theorem bpRepeat_add {g : Geometry} {seq : List Byte} {acc : Array Nat} (holds : AccHolds g seq acc) (b : Byte)
    (j k : Nat) (room : seq.length + j ≤ g.cells) (fits : CellSumsFit g (seq ++ List.replicate j b)) :
    ∃ acc', AccHolds g (seq ++ List.replicate j b) acc' ∧
      bpRepeat g b.toNat (j + k) seq.length acc = bpRepeat g b.toNat k (seq.length + j) acc' := by
  induction j generalizing seq acc with
  | zero => exact ⟨acc, by simpa using holds, by simp⟩
  | succ j ih =>
    have e : seq ++ List.replicate (j + 1) b = (seq ++ [b]) ++ List.replicate j b := by
      simp [List.replicate_succ]
    rw [e] at fits
    have one := accHolds_step holds b (by omega)
    obtain ⟨acc', holds', eq⟩ := ih one (by simp; omega) fits
    refine ⟨acc', by rwa [e], ?_⟩
    rw [show j + 1 + k = j + k + 1 by omega,
      bpRepeat_succ holds b (j + k) (by omega) (CellSumsFit.prefix fits _ (mod_npix_lt (by omega))), eq]
    congr 1
    simp; omega

/-- A whole record that neither overruns nor exceeds 255. -/
theorem bpRepeat_all {g : Geometry} {seq : List Byte} {acc : Array Nat} (holds : AccHolds g seq acc) (b : Byte)
    (j : Nat) (room : seq.length + j ≤ g.cells) (fits : CellSumsFit g (seq ++ List.replicate j b)) :
    ∃ acc', AccHolds g (seq ++ List.replicate j b) acc' ∧
      bpRepeat g b.toNat j seq.length acc = .ok (seq.length + j, acc') := by
  obtain ⟨acc', holds', eq⟩ := bpRepeat_add holds b j 0 room fits
  exact ⟨acc', holds', by simpa [bpRepeat] using eq⟩

/-- Records that are legal, stay inside the planes and fit are added one by one. -/
theorem bpDecLoop_append {g : Geometry} {seq : List Byte} {acc : Array Nat} (holds : AccHolds g seq acc)
    (good rest : List Run) (legal : ∀ r ∈ good, 1 ≤ r.length)
    (room : (seq ++ expandRuns good).length ≤ g.cells) (fits : CellSumsFit g (seq ++ expandRuns good)) :
    ∃ acc', AccHolds g (seq ++ expandRuns good) acc' ∧
      bpDecLoop g (good ++ rest) seq.length acc = bpDecLoop g rest (seq ++ expandRuns good).length acc' := by
  induction good generalizing seq acc with
  | nil => exact ⟨acc, by simpa using holds, by simp⟩
  | cons r good ih =>
    have pos := legal r List.mem_cons_self
    have e : seq ++ expandRuns (r :: good) = (seq ++ List.replicate r.length r.symbol) ++ expandRuns good := by simp
    rw [e] at room fits ⊢
    obtain ⟨acc₁, holds₁, eq₁⟩ := bpRepeat_all holds r.symbol r.length (by simp at room; omega) fits.prefix
    obtain ⟨acc₂, holds₂, eq₂⟩ := ih holds₁ (fun q mem => legal q (List.mem_cons_of_mem _ mem)) room fits
    refine ⟨acc₂, holds₂, ?_⟩
    rw [List.cons_append, bpDecLoop, if_neg (by omega), eq₁, ← eq₂]
    simp

/-- Records that fill the eight planes exactly and fit decode to the cell sums. -/
theorem bpDecLoop_full (g : Geometry) (runs : List Run) (legal : ∀ r ∈ runs, 1 ≤ r.length)
    (full : (expandRuns runs).length = g.cells) (fits : CellSumsFit g (expandRuns runs)) :
    ∃ acc, AccHolds g (expandRuns runs) acc ∧ bpDecLoop g runs 0 (Array.replicate g.npix 0) = .ok acc := by
  obtain ⟨acc, holds, eq⟩ := bpDecLoop_append (accHolds_start g) runs [] legal (by simp [full]) (by simpa using fits)
  refine ⟨acc, by simpa using holds, ?_⟩
  simpa [bpDecLoop, full] using eq

/-! ### The planes of a raster -/

/-- A sample is the sum of its eight plane symbols (R100). -/
theorem sum_planeSymbol (b : Byte) : ((List.range 8).map fun p => (planeSymbol p b).toNat).sum = b.toNat := by
  revert b; decide

theorem getD_flatMap_range (rows : Nat → List Byte) (n k : Nat) (len : ∀ p, (rows p).length = n) (p i : Nat)
    (inK : p < k) (inside : i < n) :
    ((List.range k).flatMap rows).getD (p * n + i) 0#8 = (rows p).getD i 0#8 := by
  have total : ∀ k, ((List.range k).flatMap rows).length = k * n := by
    intro k
    induction k with
    | zero => simp
    | succ k ih => simp [List.range_succ, ih, len, Nat.add_mul]
  induction k with
  | zero => omega
  | succ k ih =>
    rw [List.range_succ, List.flatMap_append, List.getD_eq_getElem?_getD]
    rcases Nat.lt_or_eq_of_le (Nat.lt_succ_iff.1 inK) with below | rfl
    · have : p * n + i < k * n := by
        have := Nat.mul_le_mul_right n (Nat.succ_le_of_lt below)
        rw [Nat.succ_mul] at this; omega
      rw [List.getElem?_append_left (by rwa [total]), ← List.getD_eq_getElem?_getD, ih below]
    · rw [List.getElem?_append_right (by rw [total]; omega), total, Nat.add_sub_cancel_left]
      simp

/-- Laid over the planes in order, the plane sequences of a raster add up to the raster (R103). -/
theorem cellSum_planes (g : Geometry) (raster : List Byte) (len : raster.length = g.npix) (i : Nat)
    (inside : i < g.npix) :
    cellSum g ((List.range 8).flatMap fun p => plane p raster) i = (raster.getD i 0#8).toNat := by
  rw [← sum_planeSymbol, cellSum]
  congr 1
  refine List.map_congr_left fun p mem => ?_
  rw [getD_flatMap_range _ g.npix 8 (by simp [plane, len]) p i (List.mem_range.1 mem) inside]
  have inRaster : i < raster.length := by omega
  simp [plane, inRaster]

end Sys2Proof.Machine
end

