-- ==== Sys2Proof/Laws/Decode.lean ====
section
/-! SUPPORT. The decoder as a function of the word's number (30_encoding.md R70 to R74). -/

namespace Sys2Proof

theorem zeroField_eq_zero_iff (c : Word) : zeroField c = 0#24 ↔ c.toNat < 256 := by
  rw [← BitVec.toNat_inj]
  have := c.isLt
  simp [zeroField, Nat.shiftRight_eq_div_pow]
  omega

theorem toNat_opcField (c : Word) : (opcField c).toNat = c.toNat % 256 := by
  simp [opcField]

/-- The command an opcode number selects (R71). -/
def commandOfNumber : Nat → Option Instr
  | 1 => some .rleEnc
  | 2 => some .rleDec
  | 3 => some .bpEnc
  | 4 => some .bpDec
  | 5 => some .hist
  | 6 => some .hbuild
  | _ => none

theorem find_opcodeMap (opc : BitVec 8) :
    (opcodeMap.find? fun row => row.opc = opc).map OpcodeRow.instr = commandOfNumber opc.toNat := by
  revert opc; decide +kernel

/-- The decoder by the word's number: a word of 256 or more has a non-zero ZERO field, any other is its opcode. -/
theorem decode_eq (c : Word) :
    decode c =
      if 256 ≤ c.toNat then .error .zeroFieldNotZero
      else match commandOfNumber c.toNat with
        | some i => .ok i
        | none => .error .reservedOpcode := by
  unfold decode
  by_cases small : c.toNat < 256
  · rw [if_neg (by simpa using (zeroField_eq_zero_iff c).2 small), if_neg (by omega)]
    have found := find_opcodeMap (opcField c)
    rw [toNat_opcField, Nat.mod_eq_of_lt small] at found
    rw [← found]
    cases opcodeMap.find? fun row => row.opc = opcField c <;> rfl
  · rw [if_pos fun e => small ((zeroField_eq_zero_iff c).1 e), if_pos (by omega)]

theorem commandOfNumber_eq_some_iff (n : Nat) (i : Instr) : commandOfNumber n = some i ↔ n = (encode i).toNat := by
  constructor
  · intro h
    unfold commandOfNumber at h
    split at h <;> cases h <;> rfl
  · rintro rfl
    cases i <;> rfl

end Sys2Proof
end

