-- ==== Sys2Proof/Laws/Huffman.lean ====
section
/-! SUPPORT. The laws of the Huffman construction (42_huffman.md): removal by least key, what merging builds, the codes
of a tree, the leaves of a frequency table, and the size estimate. -/

namespace Sys2Proof.Machine

/-! ### Removal order (R114) -/

theorem LiveNode.before_iff (a b : LiveNode) : a.before b = true ↔ KeyLess a b := by
  simp [LiveNode.before, KeyLess]

theorem KeyLess.trans {a b c : LiveNode} (ab : KeyLess a b) (bc : KeyLess b c) : KeyLess a c := by
  unfold KeyLess at *; omega

/-- Two nodes of different index are comparable. -/
theorem keyLess_of_not {a b : LiveNode} (different : a.index ≠ b.index) (h : ¬ KeyLess a b) : KeyLess b a := by
  unfold KeyLess at *; omega

/-- The indices of a live set are distinct. -/
def DistinctIndices (live : List LiveNode) : Prop := live.Pairwise fun a b => a.index ≠ b.index

theorem DistinctIndices.perm {a b : List LiveNode} (h : DistinctIndices a) (p : a.Perm b) : DistinctIndices b :=
  p.pairwise h fun e => Ne.symm e

/-- `extractMin` removes one node and keeps the others. -/
theorem extractMin_perm (x : LiveNode) (rest : List LiveNode) :
    (x :: rest).Perm ((extractMin x rest).1 :: (extractMin x rest).2) := by
  induction rest generalizing x with
  | nil => simp [extractMin]
  | cons y rest ih =>
    simp only [extractMin]
    split
    · exact ((ih y).cons x).trans (List.Perm.swap _ _ _)
    · exact (List.Perm.swap _ _ _).trans (((ih x).cons y).trans (List.Perm.swap _ _ _))

/-- The removed node is the least: it comes before every other one. -/
theorem extractMin_least (x : LiveNode) (rest : List LiveNode) (distinct : DistinctIndices (x :: rest)) :
    ∀ y ∈ (extractMin x rest).2, KeyLess (extractMin x rest).1 y := by
  induction rest generalizing x with
  | nil => simp [extractMin]
  | cons y rest ih =>
    have sub : DistinctIndices (x :: rest) :=
      distinct.sublist (List.Sublist.cons_cons x (List.sublist_cons_self y rest))
    have tail : DistinctIndices (y :: rest) := (List.pairwise_cons.1 distinct).2
    have xy : x.index ≠ y.index := (List.pairwise_cons.1 distinct).1 y List.mem_cons_self
    simp only [extractMin]
    split
    · rename_i yFirst
      intro z mem
      rcases List.mem_cons.1 mem with rfl | mem
      · have yMem := (extractMin_perm y rest).subset List.mem_cons_self
        rcases List.mem_cons.1 yMem with e | yMem
        · rw [← e]; exact (LiveNode.before_iff _ _).1 yFirst
        · exact (ih y tail _ yMem).trans ((LiveNode.before_iff _ _).1 yFirst)
      · exact ih y tail z mem
    · rename_i xFirst
      have xBefore : KeyLess x y := keyLess_of_not (Ne.symm xy) fun h => xFirst ((LiveNode.before_iff _ _).2 h)
      intro z mem
      rcases List.mem_cons.1 mem with rfl | mem
      · have xMem := (extractMin_perm x rest).subset List.mem_cons_self
        rcases List.mem_cons.1 xMem with e | xMem
        · rw [← e]; exact xBefore
        · exact (ih x sub _ xMem).trans xBefore
      · exact ih x sub z mem

/-! ### Merging (R114, R115) -/

/-- With enough fuel `merge` builds the tree that R114 and R115 describe. -/
theorem merge_huffmanMerge (fuel next : Nat) (x : LiveNode) (rest : List LiveNode) (enough : rest.length < fuel)
    (distinct : DistinctIndices (x :: rest)) (old : ∀ y ∈ x :: rest, y.index < next) :
    HuffmanMerge next (x :: rest) (merge fuel next x rest) := by
  induction fuel generalizing next x rest with
  | zero => omega
  | succ fuel ih =>
    have perm := extractMin_perm x rest
    have least := extractMin_least x rest distinct
    have apart := DistinctIndices.perm distinct perm
    rw [merge]
    split
    · rename_i a eq
      rw [eq] at perm
      obtain ⟨rfl, rfl⟩ : x = a ∧ rest = [] := by simpa using List.perm_singleton.1 perm
      exact HuffmanMerge.root next x.index x.tree
    · rename_i a y others eq
      rw [eq] at perm least apart
      have permB := extractMin_perm y others
      have tail : DistinctIndices (y :: others) := (List.pairwise_cons.1 apart).2
      have leastB := extractMin_least y others tail
      generalize extractMin y others = split at permB leastB
      obtain ⟨b, left⟩ := split
      have all : (x :: rest).Perm (a :: b :: left) := perm.trans (permB.cons a)
      have apartAll := DistinctIndices.perm distinct all
      refine HuffmanMerge.merge next (x :: rest) left a b _ all (fun z mem => ?_) leastB ?_
      · exact least z (permB.symm.subset mem)
      · refine ih (next + 1) ⟨next, treeJoin a.tree b.tree⟩ left ?_ ?_ ?_
        · have := all.length_eq; simp at this; omega
        · refine List.pairwise_cons.2 ⟨fun z mem => ?_, ?_⟩
          · have := old z (all.symm.subset (List.mem_cons_of_mem _ (List.mem_cons_of_mem _ mem)))
            exact (Nat.ne_of_lt this).symm
          · exact (List.pairwise_cons.1 (List.pairwise_cons.1 apartAll).2).2
        · intro z mem
          rcases List.mem_cons.1 mem with rfl | mem
          · exact Nat.lt_succ_self _
          · exact Nat.lt_succ_of_lt
              (old z (all.symm.subset (List.mem_cons_of_mem _ (List.mem_cons_of_mem _ mem))))

/-- The values at the leaves of a tree, left to right. -/
def treeValues : Tree → List Byte
  | .leaf v _ => [v]
  | .internal l r _ => treeValues l ++ treeValues r

/-- Merging keeps the leaves: the root has the values of the live nodes it was built from. -/
theorem HuffmanMerge.values_perm {next : Nat} {live : List LiveNode} {root : Tree} (h : HuffmanMerge next live root) :
    (treeValues root).Perm (live.flatMap fun node => treeValues node.tree) := by
  induction h with
  | root next k t => simp
  | merge next live others a b root removed aLeast bLeast rest ih =>
    refine ih.trans ?_
    refine List.Perm.trans ?_ (removed.flatMap_right fun node => treeValues node.tree).symm
    simp [treeValues]

/-! ### The codes of a tree (R117, R121) -/

theorem treeValues_length_pos (t : Tree) : 1 ≤ (treeValues t).length := by
  induction t with
  | leaf v f => simp [treeValues]
  | internal l r f ihl ihr => simp [treeValues]; omega

theorem assign_keys (t : Tree) (path : List Bool) : (assign t path).map Prod.fst = treeValues t := by
  induction t generalizing path with
  | leaf v f => simp [assign, treeValues]
  | internal l r f ihl ihr => simp [assign, treeValues, ihl, ihr]

/-- The table's entries are the root-to-leaf paths. -/
theorem mem_assign (t : Tree) (path : List Bool) (v : Byte) (q : List Bool) :
    (v, q) ∈ assign t path ↔ ∃ p, q = path ++ p ∧ PathTo t p v := by
  induction t generalizing path with
  | leaf w f =>
    simp only [assign, List.mem_singleton, Prod.mk.injEq]
    constructor
    · rintro ⟨rfl, rfl⟩
      exact ⟨[], by simp, .leaf _ _⟩
    · rintro ⟨p, rfl, h⟩
      cases h
      simp
  | internal l r f ihl ihr =>
    simp only [assign, List.mem_append, ihl, ihr]
    constructor
    · rintro (⟨p, rfl, h⟩ | ⟨p, rfl, h⟩)
      · exact ⟨false :: p, by simp, .left _ _ _ _ _ h⟩
      · exact ⟨true :: p, by simp, .right _ _ _ _ _ h⟩
    · rintro ⟨p, rfl, h⟩
      cases h with
      | left _ _ _ p _ h => exact .inl ⟨p, by simp, h⟩
      | right _ _ _ p _ h => exact .inr ⟨p, by simp, h⟩

/-- A path to a leaf is shorter than the number of leaves (R117). -/
theorem PathTo.length_lt {t : Tree} {p : List Bool} {v : Byte} (h : PathTo t p v) :
    p.length + 1 ≤ (treeValues t).length := by
  induction h with
  | leaf v f => simp [treeValues]
  | left l r f p v _ ih => have := treeValues_length_pos r; simp [treeValues]; omega
  | right l r f p v _ ih => have := treeValues_length_pos l; simp [treeValues]; omega

/-- In a tree of two or more leaves no path to a leaf is empty. -/
theorem PathTo.length_pos {t : Tree} {p : List Bool} {v : Byte} (h : PathTo t p v) (two : 2 ≤ (treeValues t).length) :
    1 ≤ p.length := by
  cases h with
  | leaf v f => simp [treeValues] at two
  | left => simp
  | right => simp

/-- No leaf lies on the path to another (R121). -/
theorem PathTo.prefix_free {t : Tree} {a b : List Bool} {v w : Byte} (ha : PathTo t a v) (hb : PathTo t b w)
    (pre : a <+: b) : v = w := by
  induction ha generalizing b with
  | leaf v f => cases hb; rfl
  | left l r f p v _ ih =>
    cases hb with
    | left _ _ _ q _ h => exact ih h (List.cons_prefix_cons.1 pre).2
    | right _ _ _ q _ h => exact absurd (List.cons_prefix_cons.1 pre).1 (by simp)
  | right l r f p v _ ih =>
    cases hb with
    | left _ _ _ q _ h => exact absurd (List.cons_prefix_cons.1 pre).1 (by simp)
    | right _ _ _ q _ h => exact ih h (List.cons_prefix_cons.1 pre).2

theorem lookup_eq_some_iff {table : List (Byte × List Bool)} (nodup : (table.map Prod.fst).Nodup) (v : Byte)
    (p : List Bool) : table.lookup v = some p ↔ (v, p) ∈ table := by
  induction table with
  | nil => simp
  | cons entry rest ih =>
    obtain ⟨w, q⟩ := entry
    simp only [List.map_cons, List.nodup_cons] at nodup
    rw [List.lookup_cons]
    by_cases same : v = w
    · subst same
      simp only [beq_self_eq_true, List.mem_cons, Prod.mk.injEq, true_and, Option.some.injEq]
      constructor
      · rintro rfl; exact .inl rfl
      · rintro (rfl | mem)
        · rfl
        · exact absurd (List.mem_map.2 ⟨_, mem, rfl⟩) nodup.1
    · have other : (v == w) = false := by simpa using same
      simp [other, same, ih nodup.2]

theorem lookup_isSome_iff (table : List (Byte × List Bool)) (v : Byte) :
    (table.lookup v).isSome = true ↔ v ∈ table.map Prod.fst := by
  simp [List.lookup_isSome_iff]

/-! ### The frequency table and its leaves (R112, R113) -/

theorem freq_toList (s : State) : s.freq.toList = (List.range 256).map s.freqAt := by
  apply List.ext_getElem
  · simp
  · intro i h h'
    have inside : i < 256 := by simpa using h
    simp [State.freqAt, inside]

theorem freqTotal_eq (s : State) : freqTotal s.freq = totalFrequency s := by
  simp [freqTotal, totalFrequency, freq_toList, Function.comp_def]

theorem freqSupport_eq (s : State) : freqSupport s.freq = distinctValues s := by
  simp [freqSupport, distinctValues, freq_toList, List.countP_map, Function.comp_def]

/-- The values of non-zero frequency, in increasing order. -/
def usedValues (s : State) : List Nat := (List.range 256).filter fun v => s.freqAt v ≠ 0#32

theorem mem_usedValues (s : State) (v : Nat) : v ∈ usedValues s ↔ v < 256 ∧ s.freqAt v ≠ 0#32 := by
  simp [usedValues]

theorem length_usedValues (s : State) : (usedValues s).length = distinctValues s := by
  simp [usedValues, distinctValues, List.countP_eq_length_filter]

theorem usedValues_pairwise (s : State) : (usedValues s).Pairwise (· < ·) :=
  List.pairwise_lt_range.filter _

theorem makeLeaves_eq (s : State) :
    makeLeaves s.freq =
      (usedValues s).mapIdx fun j v => ⟨j, .leaf (BitVec.ofNat 8 v) (s.freqAt v).toNat⟩ := by
  have select : ∀ l : List (Fin 256),
      (l.filterMap fun v : Fin 256 =>
        if s.freq[v] = 0#32 then none else some (Tree.leaf (BitVec.ofNat 8 v) s.freq[v].toNat)) =
      ((l.map Fin.val).filter fun v => decide (s.freqAt v ≠ 0#32)).map fun v =>
        Tree.leaf (BitVec.ofNat 8 v) (s.freqAt v).toNat := by
    intro l
    induction l with
    | nil => rfl
    | cons v l ih =>
      have at_v : s.freqAt v.val = s.freq[v] := by simp [State.freqAt, v.isLt]
      rw [List.map_cons, List.filterMap_cons, List.filter_cons, at_v, ih]
      by_cases zero : s.freq[v] = 0#32
      · rw [if_pos zero, if_neg (by simpa using zero)]
      · rw [if_neg zero, if_pos (by simpa using zero), List.map_cons, at_v]
  rw [makeLeaves, select, List.map_coe_finRange_eq_range, usedValues]
  apply List.ext_getElem <;> simp

theorem makeLeaves_leavesInOrder (s : State) : LeavesInOrder s (makeLeaves s.freq) :=
  ⟨usedValues s, usedValues_pairwise s, mem_usedValues s, makeLeaves_eq s⟩

@[simp] theorem length_makeLeaves (s : State) : (makeLeaves s.freq).length = distinctValues s := by
  simp [makeLeaves_eq, length_usedValues]

theorem makeLeaves_index (s : State) : ∀ x ∈ makeLeaves s.freq, x.index < (makeLeaves s.freq).length := by
  intro x mem
  rw [makeLeaves_eq] at mem ⊢
  obtain ⟨j, h, rfl⟩ := List.mem_mapIdx.1 mem
  simpa using h

theorem makeLeaves_distinct (s : State) : DistinctIndices (makeLeaves s.freq) := by
  rw [makeLeaves_eq, DistinctIndices, List.pairwise_iff_getElem]
  intro i j hi hj lt
  simp; omega

theorem makeLeaves_values (s : State) :
    ((makeLeaves s.freq).flatMap fun node => treeValues node.tree) = (usedValues s).map (BitVec.ofNat 8) := by
  rw [makeLeaves_eq]
  have : ∀ (l : List Nat) (k : Nat),
      ((l.mapIdx fun j v => (⟨k + j, .leaf (BitVec.ofNat 8 v) (s.freqAt v).toNat⟩ : LiveNode)).flatMap
        fun node => treeValues node.tree) = l.map (BitVec.ofNat 8) := by
    intro l
    induction l with
    | nil => simp
    | cons v l ih =>
      intro k
      have shift : (l.mapIdx fun j v => (⟨k + (j + 1), .leaf (BitVec.ofNat 8 v) (s.freqAt v).toNat⟩ : LiveNode)) =
          l.mapIdx fun j v => ⟨k + 1 + j, .leaf (BitVec.ofNat 8 v) (s.freqAt v).toNat⟩ := by
        congr 1; funext j v; simp; omega
      rw [List.mapIdx_cons, List.flatMap_cons, shift, ih]
      simp [treeValues]
  simpa using this (usedValues s) 0

theorem ofNat_eight_inj {v w : Nat} (hv : v < 256) (hw : w < 256) (e : BitVec.ofNat 8 v = BitVec.ofNat 8 w) :
    v = w := by
  have := congrArg BitVec.toNat e
  simp at this; omega

theorem usedBytes_nodup (s : State) : ((usedValues s).map (BitVec.ofNat 8)).Nodup := by
  refine List.Nodup.map_on (fun v hv w hw e => ?_) ((usedValues_pairwise s).imp fun h => Nat.ne_of_lt h)
  exact ofNat_eight_inj ((mem_usedValues s v).1 hv).1 ((mem_usedValues s w).1 hw).1 e

/-! ### HBUILD as a whole -/

/-- What HBUILD does on a table that is neither empty nor too large: the tree it builds and the state it leaves. -/
theorem hbuild_ok (s : State) (some_used : 1 ≤ distinctValues s) (small : totalFrequency s < 2 ^ 32) :
    ∃ root, HuffmanMerge (distinctValues s) (makeLeaves s.freq) root ∧
      hbuild s = .ok (writeTable (assign root []) s) := by
  have distinct := makeLeaves_distinct s
  have index := makeLeaves_index s
  have len := length_makeLeaves s
  rw [hbuild]
  cases leaves : makeLeaves s.freq with
  | nil => rw [leaves] at len; simp at len; omega
  | cons x rest =>
    rw [leaves] at distinct index len
    have n : distinctValues s = rest.length + 1 := by simpa using len.symm
    refine ⟨merge (rest.length + 1) (rest.length + 1) x rest, ?_, ?_⟩
    · rw [n]
      exact merge_huffmanMerge _ _ x rest (by omega) distinct fun y mem => by simpa using index y mem
    · simp only [freqTotal_eq, if_neg (Nat.not_le.2 small)]

/-- The values at the leaves of HBUILD's tree are the used values, each once. -/
theorem root_values {s : State} {root : Tree} (built : HuffmanMerge (distinctValues s) (makeLeaves s.freq) root) :
    (treeValues root).Perm ((usedValues s).map (BitVec.ofNat 8)) := by
  have := built.values_perm
  rwa [makeLeaves_values] at this

theorem root_table_nodup {s : State} {root : Tree} (built : HuffmanMerge (distinctValues s) (makeLeaves s.freq) root) :
    ((assign root []).map Prod.fst).Nodup := by
  rw [assign_keys]
  exact (root_values built).nodup_iff.2 (usedBytes_nodup s)

theorem root_leaf_count {s : State} {root : Tree} (built : HuffmanMerge (distinctValues s) (makeLeaves s.freq) root) :
    (treeValues root).length = distinctValues s := by
  rw [(root_values built).length_eq]; simp [length_usedValues]

theorem codeAt_writeTable (table : List (Byte × List Bool)) (s : State) (v : Nat) (h : v < 256) :
    (writeTable table s).codeAt v = table.lookup (BitVec.ofNat 8 v) := by
  rw [State.codeAt, dif_pos h]
  exact Vector.getElem_ofFn h

theorem codeAt_outside (s : State) (v : Nat) (h : ¬ v < 256) : s.codeAt v = none := by
  simp [State.codeAt, h]

/-- The code of a value after HBUILD is the path to its leaf (R117, R118). -/
theorem codeAt_root {s : State} {root : Tree} (built : HuffmanMerge (distinctValues s) (makeLeaves s.freq) root)
    (v : Nat) (h : v < 256) (p : List Bool) :
    (writeTable (assign root []) s).codeAt v = some p ↔ PathTo root p (BitVec.ofNat 8 v) := by
  rw [codeAt_writeTable _ _ _ h, lookup_eq_some_iff (root_table_nodup built), mem_assign]
  simp

theorem codeAt_root_isSome {s : State} {root : Tree}
    (built : HuffmanMerge (distinctValues s) (makeLeaves s.freq) root) (v : Nat) (h : v < 256) :
    ((writeTable (assign root []) s).codeAt v).isSome = true ↔ s.freqAt v ≠ 0#32 := by
  rw [codeAt_writeTable _ _ _ h, lookup_isSome_iff, assign_keys, (root_values built).mem_iff, List.mem_map]
  constructor
  · rintro ⟨w, mem, e⟩
    have := (mem_usedValues s w).1 mem
    rw [← ofNat_eight_inj this.1 h e]; exact this.2
  · intro used
    exact ⟨v, (mem_usedValues s v).2 ⟨h, used⟩, rfl⟩

/-- Every code of HBUILD's tree has at most one bit less than there are values, so at most 255 (R117). -/
theorem codeAt_root_length {s : State} {root : Tree}
    (built : HuffmanMerge (distinctValues s) (makeLeaves s.freq) root) (v : Nat) (p : List Bool)
    (code : (writeTable (assign root []) s).codeAt v = some p) : p.length ≤ distinctValues s - 1 := by
  by_cases h : v < 256
  · have := ((codeAt_root built v h p).1 code).length_lt
    rw [root_leaf_count built] at this; omega
  · rw [codeAt_outside _ _ h] at code; cases code

theorem distinctValues_le (s : State) : distinctValues s ≤ 256 := by
  simpa [distinctValues] using List.countP_le_length (p := fun v => decide (s.freqAt v ≠ 0#32)) (l := List.range 256)

/-! ### The size estimate (R119) -/

theorem sum_map_filter {l : List Nat} (p : Nat → Bool) (f : Nat → Nat) (zero : ∀ x ∈ l, p x = false → f x = 0) :
    ((l.filter p).map f).sum = (l.map f).sum := by
  induction l with
  | nil => rfl
  | cons x l ih =>
    have rest := ih fun y mem => zero y (List.mem_cons_of_mem _ mem)
    rw [List.filter_cons]
    cases px : p x with
    | true => simp [rest]
    | false => simp [rest, zero x List.mem_cons_self px]

/-- What one value adds to the estimate, the code table being `t`'s and the frequencies `s`'s. -/
def estimateTerm (t s : State) (v : Nat) : Nat := (entryLen (t.codeAt v) + 7) / 8 * (s.freqAt v).toNat

theorem sizeEstimate_root {s : State} {root : Tree}
    (built : HuffmanMerge (distinctValues s) (makeLeaves s.freq) root) :
    sizeEstimate s.freq (assign root []) =
      ((List.range 256).map (estimateTerm (writeTable (assign root []) s) s)).sum := by
  have nodup := root_table_nodup built
  have entries : sizeEstimate s.freq (assign root []) =
      (((assign root []).map Prod.fst).map fun b =>
        estimateTerm (writeTable (assign root []) s) s b.toNat).sum := by
    rw [sizeEstimate, List.map_map]
    congr 1
    refine List.map_congr_left fun entry mem => ?_
    have found := (lookup_eq_some_iff nodup entry.1 entry.2).2 mem
    have inside : entry.1.toNat < 256 := entry.1.isLt
    simp only [Function.comp, estimateTerm, codeAt_writeTable _ _ _ inside, BitVec.ofNat_toNat, BitVec.setWidth_eq,
      found, entryLen, State.freqAt, dif_pos inside]
  have used := sum_map_filter (l := List.range 256) (fun v => decide (s.freqAt v ≠ 0#32))
    (estimateTerm (writeTable (assign root []) s) s) fun v _ unused => by
      have zero : s.freqAt v = 0#32 := by simpa using unused
      simp [estimateTerm, zero]
  rw [entries, assign_keys, ((root_values built).map _).sum_eq, List.map_map, ← used]
  refine congrArg List.sum (List.map_congr_left fun v mem => ?_)
  have inside := ((mem_usedValues s v).1 mem).1
  simp [Function.comp, Nat.mod_eq_of_lt inside]

theorem sum_map_le {l : List Nat} (f g : Nat → Nat) (k : Nat) (le : ∀ x ∈ l, f x ≤ k * g x) :
    (l.map f).sum ≤ k * (l.map g).sum := by
  induction l with
  | nil => simp
  | cons x l ih =>
    have := ih fun y mem => le y (List.mem_cons_of_mem _ mem)
    have := le x List.mem_cons_self
    simp only [List.map_cons, List.sum_cons, Nat.mul_add]; omega

/-- The estimate fits EST_BITS = 40 (R8 (g)). -/
theorem sizeEstimate_lt {s : State} {root : Tree}
    (built : HuffmanMerge (distinctValues s) (makeLeaves s.freq) root) (small : totalFrequency s < 2 ^ 32) :
    sizeEstimate s.freq (assign root []) < 2 ^ 40 := by
  have bound : sizeEstimate s.freq (assign root []) ≤ 32 * totalFrequency s := by
    rw [sizeEstimate_root built, totalFrequency]
    refine sum_map_le _ _ 32 fun v mem => ?_
    refine Nat.mul_le_mul_right _ ?_
    cases code : (writeTable (assign root []) s).codeAt v with
    | none => simp [entryLen]
    | some p =>
      have := codeAt_root_length built v p code
      have := distinctValues_le s
      simp only [entryLen]; omega
  omega

/-- EST after the write-back is the estimate (R33, R119). -/
theorem est_writeTable {s : State} {root : Tree}
    (built : HuffmanMerge (distinctValues s) (makeLeaves s.freq) root) (small : totalFrequency s < 2 ^ 32) :
    (writeTable (assign root []) s).est = sizeEstimate s.freq (assign root []) := by
  have := sizeEstimate_lt built small
  simp only [State.est, writeTable_estLo, writeTable_estHi, BitVec.toNat_ofNat]
  omega

/-! ### The histogram and the table read element by element -/

/-- Counting a list key by key counts all of it when each byte is a key exactly once. -/
theorem sum_counts (l : List Byte) (keys : List Nat)
    (once : ∀ b : Byte, (keys.map fun v => if b == BitVec.ofNat 8 v then 1 else 0).sum = 1) :
    (keys.map fun v => l.count (BitVec.ofNat 8 v)).sum = l.length := by
  induction l with
  | nil => simp
  | cons b l ih => simp only [List.count_cons, List.sum_map_add, ih, once, List.length_cons]

theorem code_toList (s : State) : s.code.toList = (List.range 256).map s.codeAt := by
  apply List.ext_getElem
  · simp
  · intro i h h'
    simp at h h'
    simp [State.codeAt, h]

theorem one_le_distinctValues {s : State} (used : ∃ v, v < 256 ∧ s.freqAt v ≠ 0#32) : 1 ≤ distinctValues s := by
  rw [← length_usedValues]
  obtain ⟨v, inside, nonzero⟩ := used
  exact List.length_pos_of_mem ((mem_usedValues s v).2 ⟨inside, nonzero⟩)

end Sys2Proof.Machine
end

