-- ==== Sys2Proof/Laws/Exec.lean ====
section
/-! SUPPORT. What a command can do, said once: `exec` is the completion step over the command's result, and a result is
one of the errors the command raises or one of four kinds of writes. -/

namespace Sys2Proof.Machine

/-- The result of a command on this hardware, before the completion step applies it. -/
def commandResult (i : Instr) (s : State) : Except CmdError State :=
  match i with
  | .rleEnc => rleEnc Config.geometry s
  | .rleDec => rleDec Config.geometry s
  | .bpEnc => bpEnc Config.geometry s
  | .bpDec => bpDec Config.geometry s
  | .hist => hist Config.geometry s
  | .hbuild => hbuild s

/-- Every command completes: `exec` always answers a next state. -/
theorem exec_eq (i : Instr) (s : State) : exec i s = .next (complete s (commandResult i s)) := by
  cases i <;> rfl

@[simp] theorem complete_error (s : State) (e : CmdError) : complete s (.error e) = takeError e s := rfl

@[simp] theorem complete_ok (s t : State) : complete s (.ok t) = succeed t := rfl

/-- Every error code is non-zero and at most 8 (R151). -/
theorem CmdError.code_bounds (e : CmdError) : e.code ≠ 0#4 ∧ 1 ≤ e.code.toNat ∧ e.code.toNat ≤ 8 := by
  cases e <;> decide

/-- The declared size is the block's exactly when `IMG_W` and `IMG_H` hold 512 (R30). -/
theorem declaredSizeOk_iff (s : State) :
    declaredSizeOk Config.geometry s = true ↔ s.imgW = 512#16 ∧ s.imgH = 512#16 := by
  rw [declaredSizeOk, Bool.and_eq_true, decide_eq_true_iff, decide_eq_true_iff, ← BitVec.toNat_inj,
    ← BitVec.toNat_inj]
  rfl

/-! ### The errors of each command (R152) -/

theorem rleDecLoop_error {npix : Nat} {runs : List Run} {c : Nat} {emitted : List Byte} {e : CmdError}
    (h : rleDecLoop npix runs c emitted = .error e) : e = .format ∨ e = .overrun ∨ e = .truncatedData := by
  induction runs generalizing c emitted with
  | nil =>
    rw [rleDecLoop] at h
    split at h <;> simp_all
  | cons r rest ih =>
    rw [rleDecLoop] at h
    split at h
    · simp_all
    · split at h
      · simp_all
      · exact ih h

theorem bpRepeat_error {g : Geometry} {symbol k c : Nat} {acc : Array Nat} {e : CmdError}
    (h : bpRepeat g symbol k c acc = .error e) : e = .format ∨ e = .overrun := by
  induction k generalizing c acc with
  | zero => simp [bpRepeat] at h
  | succ k ih =>
    rw [bpRepeat] at h
    split at h
    · simp_all
    · dsimp only at h
      split at h
      · simp_all
      · exact ih h

theorem bpDecLoop_error {g : Geometry} {runs : List Run} {c : Nat} {acc : Array Nat} {e : CmdError}
    (h : bpDecLoop g runs c acc = .error e) : e = .format ∨ e = .overrun ∨ e = .truncatedData := by
  induction runs generalizing c acc with
  | nil =>
    rw [bpDecLoop] at h
    split at h <;> simp_all
  | cons r rest ih =>
    rw [bpDecLoop] at h
    split at h
    · simp_all
    · split at h
      · rename_i eq
        cases h
        exact (bpRepeat_error eq).imp_right .inl
      · exact ih h

theorem artifactLengthError_cases {g : Geometry} {s : State} {e : CmdError}
    (h : artifactLengthError g s = some e) : e = .format ∨ e = .overrun := by
  unfold artifactLengthError at h
  split at h
  · simp_all
  · split at h <;> simp_all

/-- Which errors a command's result can be. -/
theorem commandResult_error {i : Instr} {s : State} {e : CmdError} (h : commandResult i s = .error e) :
    ((i = .rleEnc ∨ i = .bpEnc ∨ i = .hist) ∧ e = .unsupportedImageSize) ∨
    ((i = .rleDec ∨ i = .bpDec) ∧ (e = .format ∨ e = .overrun ∨ e = .truncatedData)) ∨
    (i = .hbuild ∧ (e = .emptyHistogram ∨ e = .frequencyOverflow)) := by
  cases i with
  | rleEnc => simp only [commandResult, rleEnc] at h; split at h <;> simp_all
  | bpEnc => simp only [commandResult, bpEnc] at h; split at h <;> simp_all
  | hist => simp only [commandResult, hist] at h; split at h <;> simp_all
  | rleDec =>
    simp only [commandResult, rleDec] at h
    refine .inr (.inl ⟨.inl rfl, ?_⟩)
    split at h
    · rename_i eq; cases h; exact (artifactLengthError_cases eq).imp_right .inl
    · split at h
      · rename_i eq; cases h; exact rleDecLoop_error eq
      · cases h
  | bpDec =>
    simp only [commandResult, bpDec] at h
    refine .inr (.inl ⟨.inr rfl, ?_⟩)
    split at h
    · rename_i eq; cases h; exact (artifactLengthError_cases eq).imp_right .inl
    · split at h
      · rename_i eq; cases h; exact bpDecLoop_error eq
      · cases h
  | hbuild =>
    simp only [commandResult, hbuild] at h
    split at h
    · simp_all
    · split at h <;> simp_all

/-! ### The writes of each command (R65) -/

theorem rleDecLoop_ok_length {npix : Nat} {runs : List Run} {c : Nat} {emitted out : List Byte}
    (h : rleDecLoop npix runs c emitted = .ok out) (len : emitted.length = c) : out.length = npix := by
  induction runs generalizing c emitted with
  | nil =>
    rw [rleDecLoop] at h
    split at h
    · cases h
    · cases h; simp_all
  | cons r rest ih =>
    rw [rleDecLoop] at h
    split at h
    · cases h
    · split at h
      · cases h
      · exact ih h (by simp [len]; omega)

theorem bpRepeat_size {g : Geometry} {symbol k c c' : Nat} {acc acc' : Array Nat}
    (h : bpRepeat g symbol k c acc = .ok (c', acc')) : acc'.size = acc.size := by
  induction k generalizing c acc with
  | zero => simp [bpRepeat] at h; simp [h]
  | succ k ih =>
    rw [bpRepeat] at h
    split at h
    · cases h
    · dsimp only at h
      split at h
      · cases h
      · simpa using ih h

theorem bpDecLoop_size {g : Geometry} {runs : List Run} {c : Nat} {acc acc' : Array Nat}
    (h : bpDecLoop g runs c acc = .ok acc') : acc'.size = acc.size := by
  induction runs generalizing c acc with
  | nil =>
    rw [bpDecLoop] at h
    split at h
    · cases h
    · cases h; rfl
  | cons r rest ih =>
    rw [bpDecLoop] at h
    split at h
    · cases h
    · split at h
      · cases h
      · rename_i eq
        rw [ih h, bpRepeat_size eq]

/-- The state a successful command writes into: the artifact of an encoder, the raster of a decoder, the histogram, or
the code table of a tree HBUILD merges. -/
theorem commandResult_ok {i : Instr} {s t : State} (h : commandResult i s = .ok t) :
    (i = .rleEnc ∧ t = writeArtifact (rle (samples Config.geometry s)) s) ∨
    (i = .bpEnc ∧ t = writeArtifact (bpArtifact (samples Config.geometry s)) s) ∨
    ((i = .rleDec ∨ i = .bpDec) ∧
      ∃ out, out.length = Config.geometry.npix ∧ t = writeRaster Config.geometry out s) ∨
    (i = .hist ∧ ∃ f, t = { s with freq := f }) ∨
    (i = .hbuild ∧ 1 ≤ distinctValues s ∧ totalFrequency s < 2 ^ 32 ∧
      ∃ root, HuffmanMerge (distinctValues s) (makeLeaves s.freq) root ∧ t = writeTable (assign root []) s) := by
  cases i with
  | rleEnc => simp only [commandResult, rleEnc] at h; split at h <;> simp_all
  | bpEnc => simp only [commandResult, bpEnc] at h; split at h <;> simp_all
  | hist =>
    simp only [commandResult, hist] at h
    split at h
    · cases h; exact .inr (.inr (.inr (.inl ⟨rfl, _, rfl⟩)))
    · cases h
  | rleDec =>
    simp only [commandResult, rleDec] at h
    split at h
    · cases h
    · split at h
      · cases h
      · rename_i out eq
        cases h
        exact .inr (.inr (.inl ⟨.inl rfl, out, rleDecLoop_ok_length eq rfl, rfl⟩))
  | bpDec =>
    simp only [commandResult, bpDec] at h
    split at h
    · cases h
    · split at h
      · cases h
      · rename_i acc eq
        cases h
        refine .inr (.inr (.inl ⟨.inr rfl, _, ?_, rfl⟩))
        have := bpDecLoop_size eq
        simp only [Array.size_replicate] at this
        simp [this]
  | hbuild =>
    simp only [commandResult] at h
    refine .inr (.inr (.inr (.inr ⟨rfl, ?_⟩)))
    have some_used : 1 ≤ distinctValues s := by
      rw [← length_makeLeaves]
      rw [hbuild] at h
      split at h
      · cases h
      · rename_i eq; simp [eq]
    have small : totalFrequency s < 2 ^ 32 := by
      rw [hbuild] at h
      split at h
      · cases h
      · split at h
        · cases h
        · rename_i ok; rwa [← freqTotal_eq, ← Nat.not_le]
    obtain ⟨root, built, eq⟩ := hbuild_ok s some_used small
    rw [eq] at h
    cases h
    exact ⟨some_used, small, root, built, rfl⟩

/-- What no successful command touches (R65): all but STREAM, STREAM_LEN, RASTER, IMG_W, IMG_H, FREQ, CODE, NCODES and
EST keep their value, and of these each command leaves what another one writes. -/
theorem commandResult_frame {i : Instr} {s t : State} (h : commandResult i s = .ok t) :
    { t with
        stream := s.stream, streamLen := s.streamLen, raster := s.raster, imgW := s.imgW, imgH := s.imgH
        freq := s.freq, code := s.code, ncodes := s.ncodes, estLo := s.estLo, estHi := s.estHi } = s := by
  rcases commandResult_ok h with ⟨-, rfl⟩ | ⟨-, rfl⟩ | ⟨-, out, -, rfl⟩ | ⟨-, f, rfl⟩ | ⟨-, -, -, root, -, rfl⟩
  · generalize rle (samples Config.geometry s) = out
    rfl
  · generalize bpArtifact (samples Config.geometry s) = out
    rfl
  · rfl
  · rfl
  · rfl

/-- How a command ends: it takes an error, or succeeds with its writes (R150). -/
theorem exec_cases {i : Instr} {s t : State} (h : exec i s = .next t) :
    (∃ e, commandResult i s = .error e ∧ t = takeError e s) ∨ ∃ u, commandResult i s = .ok u ∧ t = succeed u := by
  rw [exec_eq] at h
  injection h with h
  cases result : commandResult i s with
  | error e => exact .inl ⟨e, rfl, by rw [← h, result]; rfl⟩
  | ok u => exact .inr ⟨u, rfl, by rw [← h, result]; rfl⟩

/-- `s` with other values of what no command reads or writes: HAZ, the port's answers, the busy reads' count (R65). -/
def withPortSide (haz : Bool) (draws : Nat) (returned : List PortValue) (s : State) : State :=
  { s with haz := haz, draws := draws, returned := returned }

/-- A result with a function applied to the state it writes. -/
def mapWritten (f : State → State) : Except CmdError State → Except CmdError State
  | .error e => .error e
  | .ok t => .ok (f t)

theorem samples_withPortSide (haz : Bool) (draws : Nat) (returned : List PortValue) (s : State) :
    samples Config.geometry (withPortSide haz draws returned s) = samples Config.geometry s := by
  rw [samples, samples]; congr 1

/-- No command reads or writes HAZ, the port's answers, or the count of busy reads. -/
theorem commandResult_withPortSide (haz : Bool) (draws : Nat) (returned : List PortValue) (i : Instr) (s : State) :
    commandResult i (withPortSide haz draws returned s) =
      mapWritten (withPortSide haz draws returned) (commandResult i s) := by
  have declared : declaredSizeOk Config.geometry (withPortSide haz draws returned s) =
    declaredSizeOk Config.geometry s := rfl
  have length : artifactLengthError Config.geometry (withPortSide haz draws returned s) =
    artifactLengthError Config.geometry s := rfl
  have runs : streamRuns (withPortSide haz draws returned s) = streamRuns s := rfl
  have freq : (withPortSide haz draws returned s).freq = s.freq := rfl
  cases i <;> simp only [commandResult]
  · rw [rleEnc, rleEnc, declared, samples_withPortSide]
    generalize rle (samples Config.geometry s) = out
    split <;> rfl
  · rw [rleDec, rleDec, length, runs]
    cases artifactLengthError Config.geometry s with
    | some e => rfl
    | none =>
      simp only
      cases rleDecLoop Config.geometry.npix (streamRuns s) 0 [] <;> rfl
  · rw [bpEnc, bpEnc, declared, samples_withPortSide]
    generalize bpArtifact (samples Config.geometry s) = out
    split <;> rfl
  · rw [bpDec, bpDec, length, runs]
    cases artifactLengthError Config.geometry s with
    | some e => rfl
    | none =>
      simp only
      cases bpDecLoop Config.geometry (streamRuns s) 0 (Array.replicate Config.geometry.npix 0) <;> rfl
  · rw [hist, hist, declared, samples_withPortSide]
    generalize samples Config.geometry s = seq
    split <;> rfl
  · rw [hbuild, hbuild, freq]
    cases makeLeaves s.freq with
    | nil => rfl
    | cons x rest =>
      simp only
      split <;> rfl

end Sys2Proof.Machine
end

