-- ==== Sys2Proof/Laws/Step.lean ====
section
/-! SUPPORT. What a step can do, said once: one equation per kind of turn, and the host accesses by whether the block is
busy. -/

namespace Sys2Proof.Machine

/-- A state whose pending list is replaced by itself. -/
theorem setPending_self {s : State} {rest : List Event} (h : s.pending = rest) : setPending rest s = s := by
  subst h; rfl

/-! ### One equation per turn -/

theorem step_engine {s : State} {rest : List Event} (next : engineNext s rest) :
    step s = engineTurn (setPending rest s) := by
  rcases next with h | ⟨h, rfl⟩
  · rw [step, h]
  · rw [setPending_self h, step, h]

theorem step_hostRead {s : State} {sp : Space} {i : Nat} {rest : List Event} (h : s.pending = .hostRead sp i :: rest) :
    step s = .next (hostRead Config.geometry sp i (setPending rest s)) := by
  rw [step, h]

theorem step_hostWrite {s : State} {sp : Space} {i : Nat} {v : Word} {rest : List Event}
    (h : s.pending = .hostWrite sp i v :: rest) :
    step s = .next (hostWrite Config.geometry sp i v (setPending rest s)) := by
  rw [step, h]

theorem step_reset {s : State} {rest : List Event} (h : s.pending = .reset :: rest) :
    step s = .next (resetBlock (setPending rest s)) := by
  rw [step, h]

/-! ### The engine's turn -/

theorem engineTurn_idle {s : State} (idle : s.busy = false) : engineTurn s = .next s := by
  simp [engineTurn, idle]

theorem engineTurn_command {s : State} {i : Instr} (busy : s.busy = true) (decoded : decode s.latch = .ok i) :
    engineTurn s = exec i s := by
  simp [engineTurn, busy, latchedCommand, decoded]

theorem engineTurn_illegal {s : State} {why : DecodeReject} (busy : s.busy = true)
    (decoded : decode s.latch = .error why) : engineTurn s = .next (takeError .illegalCommand s) := by
  simp [engineTurn, busy, latchedCommand, decoded, completeIllegal]

/-- The engine's turn of the busy block completes: with the result of a command, or with `IllegalCommandError`. -/
theorem engineTurn_busy {s : State} (busy : s.busy = true) :
    ∃ result, engineTurn s = .next (complete s result) ∧
      (result = .error .illegalCommand ∨ ∃ i, result = commandResult i s) := by
  cases decoded : decode s.latch with
  | ok i => exact ⟨_, by rw [engineTurn_command busy decoded, exec_eq], .inr ⟨i, rfl⟩⟩
  | error why => exact ⟨_, by rw [engineTurn_illegal busy decoded]; rfl, .inl rfl⟩

/-! ### Host accesses -/

theorem hostWrite_busy {g : Geometry} {sp : Space} {i : Nat} {v : Word} {s : State} (busy : s.busy = true) :
    hostWrite g sp i v s = setHaz s := by
  rw [hostWrite, if_pos busy]

theorem hostWrite_idle {g : Geometry} {sp : Space} {i : Nat} {v : Word} {s : State} (idle : s.busy = false) :
    hostWrite g sp i v s = idleWrite g sp i v s := by
  rw [hostWrite, if_neg (by simp [idle])]

theorem hostRead_busy {g : Geometry} {sp : Space} {i : Nat} {s : State} (busy : s.busy = true) (buffer : sp ≠ .csr) :
    hostRead g sp i s =
      { s with haz := true, draws := s.draws + 1, returned := busyElement s.draws sp :: s.returned } := by
  rw [hostRead, if_pos (by simp [busy, buffer])]; rfl

theorem hostRead_idle {g : Geometry} {sp : Space} {i : Nat} {s : State} (idle : s.busy = false) :
    hostRead g sp i s = { s with returned := portElement g s sp i :: s.returned } := by
  rw [hostRead, if_neg (by simp [idle])]

theorem hostRead_csr {g : Geometry} {i : Nat} {s : State} :
    hostRead g .csr i s = { s with returned := .word (csrRead s i) :: s.returned } := by
  rw [hostRead, if_neg (by simp)]; rfl

/-- A write to an index that is read-only, reserved or outside CSR is ignored (R24, R34, R56). -/
theorem csrWrite_ignored {i : Nat} (v : Word) (s : State) (h : i = 2 ∨ i = 3 ∨ 8 ≤ i) : csrWrite i v s = s := by
  unfold csrWrite; split <;> first | omega | rfl

/-! ### What any step is -/

/-- One step, by its turn: an idle engine turn, a completion, a read, a dropped write, a write, a reset. -/
theorem step_cases (s : State) :
    ∃ rest,
      (engineNext s rest ∧ s.busy = false ∧ step s = .next (setPending rest s)) ∨
      (engineNext s rest ∧ s.busy = true ∧ ∃ result,
        step s = .next (complete (setPending rest s) result) ∧
        (result = .error .illegalCommand ∨ ∃ i, result = commandResult i (setPending rest s))) ∨
      (∃ sp i, s.pending = .hostRead sp i :: rest ∧
        step s = .next (hostRead Config.geometry sp i (setPending rest s))) ∨
      (∃ sp i v, s.pending = .hostWrite sp i v :: rest ∧ s.busy = true ∧
        step s = .next (setHaz (setPending rest s))) ∨
      (∃ sp i v, s.pending = .hostWrite sp i v :: rest ∧ s.busy = false ∧
        step s = .next (idleWrite Config.geometry sp i v (setPending rest s))) ∨
      (s.pending = .reset :: rest ∧ step s = .next (resetBlock (setPending rest s))) := by
  have engine : ∀ rest, engineNext s rest →
      (engineNext s rest ∧ s.busy = false ∧ step s = .next (setPending rest s)) ∨
      (engineNext s rest ∧ s.busy = true ∧ ∃ result,
        step s = .next (complete (setPending rest s) result) ∧
        (result = .error .illegalCommand ∨ ∃ i, result = commandResult i (setPending rest s))) := by
    intro rest next
    rcases Bool.eq_false_or_eq_true s.busy with busy | idle
    · obtain ⟨result, eq, what⟩ := engineTurn_busy (s := setPending rest s) busy
      exact .inr ⟨next, busy, result, by rw [step_engine next, eq], what⟩
    · exact .inl ⟨next, idle, by rw [step_engine next, engineTurn_idle (by exact idle)]⟩
  match pending : s.pending with
  | [] => exact ⟨[], (engine [] (.inr ⟨pending, rfl⟩)).elim .inl fun h => .inr (.inl h)⟩
  | .engine :: rest => exact ⟨rest, (engine rest (.inl pending)).elim .inl fun h => .inr (.inl h)⟩
  | .hostRead sp i :: rest => exact ⟨rest, .inr (.inr (.inl ⟨sp, i, rfl, step_hostRead pending⟩))⟩
  | .hostWrite sp i v :: rest =>
    rcases Bool.eq_false_or_eq_true s.busy with busy | idle
    · exact ⟨rest, .inr (.inr (.inr (.inl
        ⟨sp, i, v, rfl, busy, by rw [step_hostWrite pending, hostWrite_busy (by exact busy)]⟩)))⟩
    · exact ⟨rest, .inr (.inr (.inr (.inr (.inl
        ⟨sp, i, v, rfl, idle, by rw [step_hostWrite pending, hostWrite_idle (by exact idle)]⟩))))⟩
  | .reset :: rest => exact ⟨rest, .inr (.inr (.inr (.inr (.inr ⟨rfl, step_reset pending⟩))))⟩

/-! ### Runs -/

theorem run_zero (s : State) : core.run 0 s = .next s := rfl

/-- A run of one step more goes on from the next state. -/
theorem run_succ_of_core (M : Host.Core) {s t : M.State} (k : Nat) (h : M.step s = .next t) :
    M.run (k + 1) s = M.run k t := by
  rw [Host.Core.run, h]

theorem run_succ {s t : State} (k : Nat) (h : step s = .next t) : core.run (k + 1) s = core.run k t :=
  run_succ_of_core core k h

end Sys2Proof.Machine
end

