-- ==== Sys2Proof/Laws/Commands.lean ====
section
/-! SUPPORT. One equation per command for the case in which it succeeds, and what it leaves readable.  `rasterList` and
`samples` are kept folded: unfolding them at 512 by 512 makes `whnf` count to 262144. -/

namespace Sys2Proof.Machine

/-! ### The sizes of this hardware -/

theorem npix_eq : Config.geometry.npix = 262144 := rfl

theorem cells_eq : Config.geometry.cells = 2097152 := rfl

theorem streamCap_eq : Config.geometry.streamCap = 4194304 := rfl

/-! ### RASTER as a list -/

theorem rasterList_eq_samples (s : State) : rasterList s = samples Config.geometry s := rfl

@[simp] theorem length_rasterList (s : State) : (rasterList s).length = Config.geometry.npix := by
  rw [rasterList, List.length_map, List.length_range]

theorem rasterList_getElem (s : State) (i : Nat) (h : i < (rasterList s).length) : (rasterList s)[i] = s.rasterAt i := by
  simp only [rasterList, List.getElem_map, List.getElem_range]

@[simp] theorem rasterAt_succeed (s : State) (i : Nat) : (succeed s).rasterAt i = s.rasterAt i := rfl

@[simp] theorem streamAt_succeed (s : State) (i : Nat) : (succeed s).streamAt i = s.streamAt i := rfl

@[simp] theorem freqAt_succeed (s : State) (v : Nat) : (succeed s).freqAt v = s.freqAt v := rfl

@[simp] theorem codeAt_succeed (s : State) (v : Nat) : (succeed s).codeAt v = s.codeAt v := rfl

@[simp] theorem rasterList_succeed (s : State) : rasterList (succeed s) = rasterList s := by
  rw [rasterList, rasterList]
  exact List.map_congr_left fun i _ => rasterAt_succeed s i

theorem rasterList_writeRaster (out : List Byte) (s : State) (full : out.length = Config.geometry.npix) :
    rasterList (writeRaster Config.geometry out s) = out := by
  rw [rasterList_eq_samples, samples_writeRaster _ _ _ full]

/-! ### Encoders -/

/-- After an encoder STREAM holds the records it wrote, and its bytes from STREAM_LEN on are the old ones (R65). -/
theorem succeed_writeArtifact_stream (runs : List Run) (s : State) (legal : ∀ r ∈ runs, r.wellFormed = true)
    (fits : 2 * runs.length < 2 ^ 32) :
    StreamHolds (succeed (writeArtifact (serialise runs) s)) runs ∧
      ∀ j, (succeed (writeArtifact (serialise runs) s)).streamLen.toNat ≤ j →
        (succeed (writeArtifact (serialise runs) s)).streamAt j = s.streamAt j := by
  have holds := streamHolds_writeArtifact runs s (fun r mem => ((Run.wellFormed_iff r).1 (legal r mem)).2) fits
  refine ⟨holds, fun j beyond => ?_⟩
  have outside : 2 * runs.length ≤ j := by rw [← holds.1]; exact beyond
  rw [streamAt_succeed, streamAt_writeArtifact, dif_neg (by rw [length_serialise]; omega)]

/-- What an encoder leaves unchanged (R65): all but STREAM, STREAM_LEN and the completion's own fields. -/
theorem succeed_writeArtifact_frame (out : List Byte) (s : State) :
    { succeed (writeArtifact out s) with stream := s.stream, streamLen := s.streamLen } =
      { s with err := 0#4, busy := false, done := true } := rfl

/-- What a decoder leaves unchanged (R65): all but RASTER, IMG_W, IMG_H and the completion's own fields. -/
theorem succeed_writeRaster_frame (g : Geometry) (out : List Byte) (s : State) :
    { succeed (writeRaster g out s) with raster := s.raster, imgW := s.imgW, imgH := s.imgH } =
      { s with err := 0#4, busy := false, done := true } := rfl

theorem exec_rleEnc_ok (s : State) (declared : declaredSizeOk Config.geometry s = true) :
    exec .rleEnc s = .next (succeed (writeArtifact (serialise (rleRuns (rasterList s))) s)) := by
  rw [exec_eq, commandResult, rleEnc, if_pos declared, complete_ok, rasterList_eq_samples, rle]

/-- The run lists of the planes of a raster. -/
def planeRuns (raster : List Byte) (p : Nat) : List Run := rleRuns (plane p raster)

theorem bpArtifact_eq (raster : List Byte) :
    bpArtifact raster = serialise ((List.range 8).flatMap (planeRuns raster)) := by
  rw [bpArtifact, serialise, List.flatMap_assoc, Config.nplanes]
  rfl

theorem exec_bpEnc_ok (s : State) (declared : declaredSizeOk Config.geometry s = true) :
    exec .bpEnc s =
      .next (succeed (writeArtifact (serialise ((List.range 8).flatMap (planeRuns (rasterList s)))) s)) := by
  rw [exec_eq, commandResult, bpEnc, if_pos declared, complete_ok, rasterList_eq_samples, bpArtifact_eq]

/-- A run list has at least one run per 255 symbols and at most one per symbol (R90). -/
theorem IsRunListOf.length_bounds {runs : List Run} {seq : List Byte} (h : IsRunListOf runs seq) :
    runs.length ≤ seq.length ∧ seq.length ≤ 255 * runs.length := by
  obtain ⟨legal, -, rfl⟩ := h
  exact ⟨length_le_expandRuns fun r mem => ((Run.wellFormed_iff r).1 (legal r mem)).1,
    expandRuns_length_le fun r mem => ((Run.wellFormed_iff r).1 (legal r mem)).2⟩

theorem isRunListOf_planeRuns (raster : List Byte) (p : Nat) : IsRunListOf (planeRuns raster p) (plane p raster) :=
  isRunListOf_rleRuns _

theorem wellFormed_planeRuns (raster : List Byte) (k : Nat) :
    ∀ r ∈ (List.range k).flatMap (planeRuns raster), r.wellFormed = true := by
  intro r mem
  obtain ⟨p, -, mem⟩ := List.mem_flatMap.1 mem
  exact (isRunListOf_planeRuns raster p).1 r mem

/-- The records of `k` planes number between `k * ceil(NPIX/255)` and `k * NPIX` (R104). -/
theorem length_planeRuns (raster : List Byte) (k : Nat) :
    ((List.range k).flatMap (planeRuns raster)).length ≤ k * raster.length ∧
      k * ((raster.length + 254) / 255) ≤ ((List.range k).flatMap (planeRuns raster)).length := by
  induction k with
  | zero => simp
  | succ k ih =>
    have bounds := (isRunListOf_planeRuns raster k).length_bounds
    have planeLength : (plane k raster).length = raster.length := List.length_map _
    have more : ((List.range (k + 1)).flatMap (planeRuns raster)).length =
        ((List.range k).flatMap (planeRuns raster)).length + (planeRuns raster k).length := by
      rw [List.range_succ (n := k), List.flatMap_append, List.length_append, List.flatMap_singleton]
    rw [planeLength] at bounds
    rw [more, Nat.succ_mul, Nat.succ_mul]
    omega

/-- The symbols of the run lists of the eight planes are the eight plane sequences. -/
theorem expandRuns_planeRuns (raster : List Byte) :
    expandRuns ((List.range 8).flatMap (planeRuns raster)) = (List.range 8).flatMap fun p => plane p raster := by
  rw [expandRuns, List.flatMap_assoc]
  congr 1
  funext p
  exact (isRunListOf_planeRuns raster p).2.2

/-! ### Decoders -/

/-- An artifact of legal records that fill the raster passes the capacity check. -/
theorem artifact_fits {runs : List Run} (legal : ∀ r ∈ runs, 1 ≤ r.length)
    (full : (expandRuns runs).length ≤ Config.geometry.cells) : 2 * runs.length ≤ Config.geometry.streamCap := by
  have := length_le_expandRuns legal
  rw [cells_eq] at full
  rw [streamCap_eq]
  omega

theorem exec_rleDec_ok {s : State} {runs : List Run} (holds : StreamHolds s runs) (legal : ∀ r ∈ runs, 1 ≤ r.length)
    (full : (expandRuns runs).length = Config.geometry.npix) :
    exec .rleDec s = .next (succeed (writeRaster Config.geometry (expandRuns runs) s)) := by
  have fits := artifact_fits legal (by rw [full, npix_eq, cells_eq]; omega)
  rw [exec_eq, commandResult, rleDec, artifactLengthError_none holds fits, streamRuns_of_streamHolds holds,
    rleDecLoop_full _ runs legal full]
  rfl

/-- What BP_DEC writes when the records fill the planes and fit: the sum of the contributions, cell by cell. -/
theorem exec_bpDec_ok {s : State} {runs : List Run} (holds : StreamHolds s runs) (legal : ∀ r ∈ runs, 1 ≤ r.length)
    (full : (expandRuns runs).length = Config.geometry.cells) (fits : CellSumsFit Config.geometry (expandRuns runs)) :
    ∃ out : List Byte, out.length = Config.geometry.npix ∧
      (∀ i (h : i < out.length), out[i].toNat = cellSum Config.geometry (expandRuns runs) i) ∧
      exec .bpDec s = .next (succeed (writeRaster Config.geometry out s)) := by
  obtain ⟨acc, ⟨size, sums⟩, eq⟩ := bpDecLoop_full Config.geometry runs legal full fits
  refine ⟨acc.toList.map (BitVec.ofNat 8), by rw [List.length_map, Array.length_toList, size], fun i h => ?_, ?_⟩
  · have inAcc : i < acc.size := by simpa using h
    have inside : i < Config.geometry.npix := size ▸ inAcc
    have sum := sums i inside
    have small := fits i inside
    rw [Array.getD, dif_pos inAcc] at sum
    rw [List.getElem_map, BitVec.toNat_ofNat, Array.getElem_toList, ← sum, Nat.mod_eq_of_lt]
    · rfl
    · rw [← sum] at small; exact Nat.lt_succ_of_le small
  · rw [exec_eq, commandResult, bpDec, artifactLengthError_none holds (artifact_fits legal (Nat.le_of_eq full)),
      streamRuns_of_streamHolds holds, eq]
    rfl

/-- An artifact stays the same when STREAM_LEN and the bytes before it do. -/
theorem StreamHolds.congr {t t' : State} {runs : List Run} (holds : StreamHolds t runs)
    (len : t'.streamLen = t.streamLen) (bytes : ∀ j, j < t.streamLen.toNat → t'.streamAt j = t.streamAt j) :
    StreamHolds t' runs := by
  have total := holds.1
  refine ⟨by rw [len, total], fun k h => ?_⟩
  rw [bytes _ (by omega), bytes _ (by omega)]
  exact holds.2 k h

/-! ### Huffman -/

theorem exec_hist_ok (s : State) (declared : declaredSizeOk Config.geometry s = true) :
    exec .hist s = .next (succeed { s with
      freq := Vector.ofFn fun v : Fin 256 => BitVec.ofNat 32 ((rasterList s).count (BitVec.ofNat 8 v)) }) := by
  rw [exec_eq, commandResult, hist, if_pos declared, complete_ok, rasterList_eq_samples]

theorem exec_hbuild_ok (s : State) (some_used : 1 ≤ distinctValues s) (small : totalFrequency s < 2 ^ 32) :
    ∃ root, HuffmanMerge (distinctValues s) (makeLeaves s.freq) root ∧
      exec .hbuild s = .next (succeed (writeTable (assign root []) s)) := by
  obtain ⟨root, built, eq⟩ := hbuild_ok s some_used small
  exact ⟨root, built, by rw [exec_eq, commandResult, eq, complete_ok]⟩

end Sys2Proof.Machine
end

