-- ==== Sys2Proof/Laws/PerInstr.lean ====
section
/-! SUPPORT. A statement about each command as syntax, one lemma per constructor (30_encoding.md R70, R71, R74). -/

namespace Sys2Proof.Laws.EncodeDecodes

/-- The command is well formed; its word is its opcode with ZERO all 0; the decoder reads the word back, and so it does
when the word is given as the opcode table numbers its bits. -/
def Statement (i : Instr) : Prop :=
  i.wellFormed = true ∧
  zeroField (encode i) = 0#24 ∧
  decode (encode i) = .ok i ∧
  decodeTableWord 32 (encode i).toNat = some i

theorem rleEnc : Statement .rleEnc := ⟨rfl, rfl, rfl, rfl⟩

theorem rleDec : Statement .rleDec := ⟨rfl, rfl, rfl, rfl⟩

theorem bpEnc : Statement .bpEnc := ⟨rfl, rfl, rfl, rfl⟩

theorem bpDec : Statement .bpDec := ⟨rfl, rfl, rfl, rfl⟩

theorem hist : Statement .hist := ⟨rfl, rfl, rfl, rfl⟩

theorem hbuild : Statement .hbuild := ⟨rfl, rfl, rfl, rfl⟩

end Sys2Proof.Laws.EncodeDecodes
end

