-- ==== Sys2Proof/Tests/Slice0.lean ====
section
/-! SUPPORT. Tests and witnesses.  Every expected value is from spec/: the opcode map of 30_encoding.md, the vectors
`V<n>` of 95_test_vectors.md, or the rule named.  The witnesses meet the hypotheses of the obligations. -/

namespace Sys2Proof.Tests

open Sys2Proof.Machine

/-! ### Helpers -/

/-- A byte space holding `bytes` from index 0. -/
def bytesFrom0 (bytes : List Byte) : Memory := bytes.mapIdx fun i v => (i, v)

/-- A raster of a model instance, its size declared. -/
def imageState (g : Geometry) (bytes : List Byte) : State :=
  { State.reset with raster := bytesFrom0 bytes, imgW := BitVec.ofNat 16 g.w, imgH := BitVec.ofNat 16 g.h }

/-- An artifact in STREAM. -/
def artifactState (bytes : List Byte) : State :=
  { State.reset with stream := bytesFrom0 bytes, streamLen := BitVec.ofNat 32 bytes.length }

/-- A frequency table with the listed entries and zeros. -/
def freqState (entries : List (Nat × Word)) : State :=
  { State.reset with freq := Vector.ofFn fun v : Fin 256 => (entries.lookup v.1).getD 0#32 }

/-- The state a command leaves, if it succeeds. -/
def written (r : Except CmdError State) : Option State :=
  match r with
  | .ok t => some t
  | .error _ => none

/-- The error a command ends with, if it fails. -/
def failure (r : Except CmdError State) : Option CmdError :=
  match r with
  | .ok _ => none
  | .error e => some e

/-- The next state of an outcome. -/
def nextState (o : Host.Outcome State Fault Refusal) : Option State :=
  match o with
  | .next t => some t
  | .fault _ => none
  | .refused _ => none

/-- The raster `R4` of 95_test_vectors.md section 2. -/
def r4 : List Byte := [5, 5, 5, 9, 9, 9, 0, 0, 0, 0, 0, 0, 0, 255, 255, 5]

/-- The block after reset with the turns `turns` to come. -/
def idleWith (turns : List Event) : State := setPending turns State.reset

/-- The block busy with command word `c`, the turns `turns` to come. -/
def busyWith (c : Word) (turns : List Event) : State := setPending turns (issue c State.reset)

/-- The reset state with 512 by 512 declared. -/
def declared : State := { State.reset with imgW := 512#16, imgH := 512#16 }

/-! ### WellFormed refuses ill-formed terms (R76, R38); no command can be ill formed (R72) -/

theorem test_run_of_length_0_refused : Run.wellFormed ⟨9#8, 0⟩ = false := by decide

theorem test_run_of_length_256_refused : Run.wellFormed ⟨9#8, 256⟩ = false := by decide

theorem test_run_lengths_1_and_255_accepted :
    Run.wellFormed ⟨9#8, 1⟩ = true ∧ Run.wellFormed ⟨9#8, 255⟩ = true := by decide

theorem test_code_of_256_bits_refused : CodeEntry.wellFormed (some (List.replicate 256 true)) = false := by
  decide +kernel

theorem test_codes_of_0_and_255_bits_accepted :
    CodeEntry.wellFormed (some []) = true ∧ CodeEntry.wellFormed (some (List.replicate 255 true)) = true := by
  decide +kernel

theorem test_every_command_well_formed : ∀ i : Instr, i.wellFormed = true := by
  intro i; cases i <;> rfl

/-! ### Decoding: the words of R71's table bit by bit, and the illegal words of V60 -/

theorem test_decode_rle_enc : decode 0b00000000000000000000000000000001#32 = .ok .rleEnc := rfl

theorem test_decode_rle_dec : decode 0b00000000000000000000000000000010#32 = .ok .rleDec := rfl

theorem test_decode_bp_enc : decode 0b00000000000000000000000000000011#32 = .ok .bpEnc := rfl

theorem test_decode_bp_dec : decode 0b00000000000000000000000000000100#32 = .ok .bpDec := rfl

theorem test_decode_hist : decode 0b00000000000000000000000000000101#32 = .ok .hist := rfl

theorem test_decode_hbuild : decode 0b00000000000000000000000000000110#32 = .ok .hbuild := rfl

theorem test_decode_illegal :
    decode 0x00000000#32 = .error .reservedOpcode ∧ decode 0x00000007#32 = .error .reservedOpcode ∧
    decode 0x000000FF#32 = .error .reservedOpcode ∧ decode 0x00000100#32 = .error .zeroFieldNotZero ∧
    decode 0x00000101#32 = .error .zeroFieldNotZero ∧ decode 0x80000001#32 = .error .zeroFieldNotZero ∧
    decode 0xFFFFFFFF#32 = .error .zeroFieldNotZero := ⟨rfl, rfl, rfl, rfl, rfl, rfl, rfl⟩

/-! ### Two vectors per command, on model instances (R5) -/

/-- V10. -/
theorem test_rle_enc_V10 :
    (written (rleEnc ⟨4, 4⟩ (imageState ⟨4, 4⟩ r4))).map (fun t => (streamBytes t 10, t.streamLen)) =
      some ([5, 3, 9, 3, 0, 7, 255, 2, 5, 1], 10#32) := by decide +kernel

/-- V2, R93. -/
theorem test_rle_V2 : rle (List.replicate 256 7#8) = [7, 255, 7, 1] := by decide +kernel

/-- V20: non-maximal runs are accepted. -/
theorem test_rle_dec_V20 :
    (written (rleDec ⟨2, 2⟩ (artifactState [9, 1, 9, 3]))).map (fun t => (samples ⟨2, 2⟩ t, t.imgW, t.imgH)) =
      some ([9, 9, 9, 9], 2#16, 2#16) := by decide +kernel

/-- V18 (b) and (c): the zero length is met before any overrun. -/
theorem test_rle_dec_V18 :
    failure (rleDec ⟨2, 2⟩ (artifactState [9, 4, 1, 1])) = some .overrun ∧
    failure (rleDec ⟨2, 2⟩ (artifactState [9, 4, 1, 0])) = some .format := by decide +kernel

/-- V26b. -/
theorem test_bp_enc_V26b :
    (written (bpEnc ⟨2, 2⟩ (imageState ⟨2, 2⟩ [3, 0, 128, 255]))).map (fun t => (streamBytes t 36, t.streamLen)) =
      some ([1, 1, 0, 2, 1, 1, 2, 1, 0, 2, 2, 1, 0, 3, 4, 1, 0, 3, 8, 1, 0, 3, 16, 1, 0, 3, 32, 1, 0, 3, 64, 1,
        0, 2, 128, 2], 36#32) := by decide +kernel

/-- V26c: adjacent equal runs of different planes stay apart. -/
theorem test_bp_enc_V26c :
    (written (bpEnc ⟨2, 2⟩ (imageState ⟨2, 2⟩ [0, 0, 0, 0]))).map (fun t => (streamBytes t 16, t.streamLen)) =
      some ([0, 4, 0, 4, 0, 4, 0, 4, 0, 4, 0, 4, 0, 4, 0, 4], 16#32) := by decide +kernel

/-- V33 (b): a run crosses from plane 0 into plane 1. -/
theorem test_bp_dec_V33 :
    (written (bpDec ⟨2, 2⟩ (artifactState [1, 6, 0, 26]))).map (samples ⟨2, 2⟩) = some [2, 2, 1, 1] := by
  decide +kernel

/-- V34, V35 (b), V37: the order of the checks. -/
theorem test_bp_dec_V34_V35_V37 :
    failure (bpDec ⟨2, 2⟩ (artifactState [255, 4, 0, 28, 255, 1])) = some .overrun ∧
    failure (bpDec ⟨2, 2⟩ (artifactState [0, 32, 0, 0])) = some .format ∧
    failure (bpDec ⟨2, 2⟩ (artifactState [200, 4, 0, 4, 56, 1, 0, 23])) = some .format := by decide +kernel

/-- V40. -/
theorem test_hist_V40 :
    (written (hist ⟨4, 4⟩ (imageState ⟨4, 4⟩ r4))).map (fun t => [0, 1, 5, 9, 254, 255].map t.freqAt) =
      some [7, 0, 4, 3, 0, 2] := by decide +kernel

/-- V55 (a), on the step after reset. -/
theorem test_hist_V55 :
    (nextState (step (State.reset.withFetchWord 32 5))).map (fun t => (t.err, t.errlog, t.busy, t.done)) =
      some (4#4, 0x0010#16, false, true) := by decide +kernel

/-- V41. -/
theorem test_hbuild_V41 :
    (written (hbuild (freqState [(0, 7), (5, 4), (9, 3), (255, 2)]))).map
        (fun t => ([0, 5, 9, 255].map t.codeAt, t.ncodes, t.est)) =
      some ([some [false], some [true, false], some [true, true, true], some [true, true, false]], 4#9, 16) := by
  decide +kernel

/-- V47: the older node of equal frequency is removed first. -/
theorem test_merge_V47 :
    assign (merge 3 3 ⟨0, .leaf 0 1⟩ [⟨1, .leaf 1 1⟩, ⟨2, .leaf 2 2⟩]) [] =
      [(2#8, [false]), (0#8, [true, false]), (1#8, [true, true])] := by decide +kernel

/-! ### The port (V65, V67) -/

theorem test_narrow_writes_V65 :
    (nextState (step (idleWith [.hostWrite .csr 5 0x12345#32]))).map State.imgW = some 0x2345#16 ∧
    (nextState (step (idleWith [.hostWrite .raster 0 0x1FF#32]))).map (fun t => t.rasterAt 0) = some 0xFF#8 ∧
    (nextState (step (idleWith [.hostWrite .csr 4 0xFFFFFFFF#32]))).map (fun t => csrRead t 4) = some 1#32 := by
  decide +kernel

theorem test_busy_read_V67 :
    (nextState (step (busyWith 1#32 [.hostRead .csr 1]))).map (fun t => (t.returned, t.haz)) =
      some ([.word 1#32], false) ∧
    (nextState (step (busyWith 1#32 [.hostRead .raster 0]))).map State.haz = some true := by decide +kernel

/-! ### Witnesses: the hypotheses of the obligations can be met -/

theorem witness_EngineStepRunsTheLatchedCommand :
    (engineNext (busyWith 6#32 [.engine, .reset]) [.reset] ∧ (busyWith 6#32 [.engine, .reset]).busy = true ∧
      decode (busyWith 6#32 [.engine, .reset]).latch = .ok .hbuild) ∧
    (engineNext (busyWith 1#32 []) [] ∧ (busyWith 1#32 []).busy = true ∧
      decode (busyWith 1#32 []).latch = .ok .rleEnc) :=
  ⟨⟨.inl rfl, rfl, rfl⟩, .inr ⟨rfl, rfl⟩, rfl, rfl⟩

theorem witness_EngineIsIdleWhenNotBusy :
    engineNext (idleWith []) [] ∧ (idleWith []).busy = false :=
  ⟨.inr ⟨rfl, rfl⟩, rfl⟩

theorem witness_CmdRegisterIssuesLatchesAndReadsBack :
    ((idleWith [.hostWrite .csr 0 7#32]).busy = false ∧
      (idleWith [.hostWrite .csr 0 7#32]).pending = .hostWrite .csr 0 7#32 :: []) ∧
    ((busyWith 1#32 [.hostWrite .csr 0 2#32]).busy = true ∧
      (busyWith 1#32 [.hostWrite .csr 0 2#32]).pending = .hostWrite .csr 0 2#32 :: []) ∧
    ((busyWith 7#32 []).busy = true ∧ engineNext (busyWith 7#32 []) [] ∧ 7 ≤ (busyWith 7#32 []).latch.toNat) ∧
    ((busyWith 0#32 []).busy = true ∧ engineNext (busyWith 0#32 []) [] ∧ (busyWith 0#32 []).latch.toNat = 0) ∧
    (idleWith [.hostRead .csr 0]).pending = .hostRead .csr 0 :: [] ∧
    ∃ t, step (idleWith [.reset]) = .next t :=
  ⟨⟨rfl, rfl⟩, ⟨rfl, rfl⟩, ⟨rfl, .inr ⟨rfl, rfl⟩, by decide⟩, ⟨rfl, .inr ⟨rfl, rfl⟩, rfl⟩, rfl, _, rfl⟩

theorem witness_IllegalWordIssuesAndFails :
    ((0#32).toNat = 0 ∧ 7 ≤ (7#32).toNat ∧ 7 ≤ (0x80000001#32).toNat) ∧
    (idleWith [.hostWrite .csr 0 7#32, .engine]).busy = false ∧
    (idleWith [.hostWrite .csr 0 7#32, .engine]).pending = .hostWrite .csr 0 7#32 :: .engine :: [] :=
  ⟨by decide, rfl, rfl⟩

/-- No reset pending, with host turns before the engine's; and a reset pending, for the last clause. -/
theorem witness_EveryIssuedCommandCompletes :
    ((busyWith 1#32 [.hostRead .csr 1, .engine]).busy = true ∧
      ∀ e ∈ (busyWith 1#32 [.hostRead .csr 1, .engine]).pending, e ≠ .reset) ∧
    ((busyWith 1#32 []).busy = true ∧ ∀ e ∈ (busyWith 1#32 []).pending, e ≠ .reset) ∧
    (busyWith 1#32 [.reset]).busy = true := by
  refine ⟨⟨rfl, ?_⟩, ⟨rfl, ?_⟩, rfl⟩
  · show ∀ e ∈ [Event.hostRead .csr 1, .engine], e ≠ .reset
    decide
  · show ∀ e ∈ ([] : List Event), e ≠ .reset
    decide

theorem witness_CsrReadsReturnTheRegisters :
    (idleWith [.hostRead .csr 10]).pending = .hostRead .csr 10 :: [] ∧
    (idleWith [.hostRead .csr 11]).pending = .hostRead .csr 11 :: [] := ⟨rfl, rfl⟩

theorem witness_CsrWritesWhileIdle :
    (idleWith [.hostWrite .csr 7 9#32]).busy = false ∧
    (idleWith [.hostWrite .csr 7 9#32]).pending = .hostWrite .csr 7 9#32 :: [] ∧
    (idleWith [.hostWrite .csr 8 9#32]).pending = .hostWrite .csr 8 9#32 :: [] := ⟨rfl, rfl, rfl⟩

theorem witness_BufferWriteChangesOneElement :
    (∀ e, (idleWith [e]).busy = false) ∧ (∀ e, (idleWith [e]).pending = e :: []) ∧
    262143 < Config.geometry.npix ∧ 4194303 < Config.geometry.streamCap ∧ 255 < 256 :=
  ⟨fun _ => rfl, fun _ => rfl, by decide, by decide, by decide⟩

theorem witness_BufferReadWhileIdleReturnsTheElement :
    (idleWith [.hostRead .raster 262143]).busy = false ∧
    (idleWith [.hostRead .raster 262143]).pending = .hostRead .raster 262143 :: [] ∧
    (idleWith [.hostRead .stream 4194303]).pending = .hostRead .stream 4194303 :: [] ∧
    (idleWith [.hostRead .freq 255]).pending = .hostRead .freq 255 :: [] ∧
    (idleWith [.hostRead .code 255]).pending = .hostRead .code 255 :: [] ∧
    262143 < Config.geometry.npix ∧ 4194303 < Config.geometry.streamCap :=
  ⟨rfl, rfl, rfl, rfl, rfl, by decide, by decide⟩

theorem witness_OutOfRangeAndReadOnlyAccesses :
    (∀ e, (idleWith [e]).busy = false) ∧ (∀ e, (idleWith [e]).pending = e :: []) ∧
    Config.geometry.npix ≤ 262144 ∧ Config.geometry.streamCap ≤ 4194304 :=
  ⟨fun _ => rfl, fun _ => rfl, by decide, by decide⟩

theorem witness_flagsInv_busy (c : Word) (turns : List Event) : FlagsInv (busyWith c turns) := by
  refine ⟨fun h => ?_, fun _ => rfl, Nat.zero_le 8, ?_, fun h => absurd rfl h, fun k _ => ?_⟩
  · cases h.2
  · show (0#4) ≠ 5#4
    decide
  · show (0#16).getLsbD k = false
    simp

theorem witness_BusyLockout :
    (∀ e, (busyWith 1#32 [e]).busy = true) ∧ (∀ e, (busyWith 1#32 [e]).pending = e :: []) ∧
    Space.code ≠ .csr ∧ FlagsInv (busyWith 1#32 [.hostRead .csr 1]) :=
  ⟨fun _ => rfl, fun _ => rfl, by decide, witness_flagsInv_busy _ _⟩

theorem witness_InterruptLineFollowsIeAndDone :
    (engineNext (busyWith 1#32 []) [] ∧ (busyWith 1#32 []).busy = true) ∧
    (∀ e, (idleWith [e]).busy = false ∧ (idleWith [e]).pending = e :: []) ∧
    (2#32).getLsbD 1 = true ∧ (2#32).getLsbD 0 = false :=
  ⟨⟨.inr ⟨rfl, rfl⟩, rfl⟩, fun _ => ⟨rfl, rfl⟩, rfl, rfl⟩

theorem witness_ErrlogRecordsErrorsUntilReset :
    (∃ t, step (busyWith 0#32 [.engine]) = .next t) ∧ (∀ rest, (busyWith 0#32 [.engine]).pending ≠ .reset :: rest) ∧
    (∃ t, step (idleWith [.reset]) = .next t) ∧ (idleWith [.reset]).pending = .reset :: [] ∧
    (∀ k, State.reset.errlog.getLsbD k = false) :=
  ⟨⟨_, rfl⟩, fun _ h => Event.noConfusion (List.cons.inj h).1, ⟨_, rfl⟩, rfl, fun k => by
    show (0#16).getLsbD k = false
    simp⟩

theorem witness_HazIsSticky :
    (∃ t, step { idleWith [.hostWrite .csr 1 4#32] with haz := true } = .next t ∧ t.haz = false) ∧
    (∃ t, step { busyWith 1#32 [.reset] with haz := true } = .next t ∧ t.haz = false) :=
  ⟨⟨_, rfl, rfl⟩, _, rfl, rfl⟩

theorem witness_ResetStepLeavesTheResetValues :
    (busyWith 1#32 [.reset, .engine]).pending = .reset :: [.engine] := rfl

theorem witness_FailedCommandChangesOnlyStatusErrErrlog :
    ∃ t, exec .rleEnc State.reset = .next t ∧ t.err ≠ 0#4 :=
  ⟨takeError .unsupportedImageSize State.reset, rfl, (CmdError.code_bounds .unsupportedImageSize).1⟩

theorem witness_EachCommandRaisesOnlyItsErrors :
    ∀ i : Instr, ∃ t, exec i State.reset = .next t := fun i => ⟨_, exec_eq i _⟩

theorem witness_WrongDeclaredSizeFails :
    State.reset.imgW ≠ 512#16 ∧ { declared with imgH := 511#16 }.imgH ≠ 512#16 := by
  refine ⟨?_, ?_⟩
  · show (0#16) ≠ 512#16
    decide
  · show (511#16) ≠ 512#16
    decide

theorem witness_DecodersCheckLengthFirst :
    { State.reset with streamLen := 4194305#32 }.streamLen.toNat % 2 = 1 ∧
    { State.reset with streamLen := 4194306#32 }.streamLen.toNat % 2 = 0 ∧
    4194304 < { State.reset with streamLen := 4194306#32 }.streamLen.toNat := by
  refine ⟨?_, ?_, ?_⟩
  · show (4194305#32).toNat % 2 = 1
    decide
  · show (4194306#32).toNat % 2 = 0
    decide
  · show 4194304 < (4194306#32).toNat
    decide

/-! Artifacts of full size.  V21c's records `1028 x [v,255], [v,4]` fill the raster; `8224 x [v,255], [v,32]` fill the
eight planes. -/

/-- The reset state with the records `runs` in STREAM. -/
def holding (runs : List Run) : State := writeArtifact (serialise runs) State.reset

theorem streamHolds_holding {runs : List Run} (legal : ∀ r ∈ runs, r.length ≤ 255)
    (fits : 2 * runs.length < 2 ^ 32) : StreamHolds (holding runs) runs :=
  streamHolds_writeArtifact runs _ legal fits

/-- `n` records `[v, 255]` and one `[v, last]`. -/
def uniform (v : Byte) (n last : Nat) : List Run := List.replicate n ⟨v, 255⟩ ++ [⟨v, last⟩]

theorem expandRuns_uniform (v : Byte) (n last : Nat) :
    expandRuns (uniform v n last) = List.replicate (n * 255 + last) v := by
  rw [uniform, expandRuns_append]
  have : expandRuns (List.replicate n ⟨v, 255⟩) = List.replicate (n * 255) v := by
    induction n with
    | zero => simp
    | succ n ih =>
      rw [List.replicate_succ, expandRuns_cons, ih, List.replicate_append_replicate]
      exact congrArg (List.replicate · v) (by show 255 + n * 255 = (n + 1) * 255; omega)
  rw [this]
  simp

theorem mem_uniform {v : Byte} {n last : Nat} {r : Run} (mem : r ∈ uniform v n last) :
    r.length = 255 ∨ r.length = last := by
  rcases List.mem_append.1 mem with h | h
  · exact .inl (by rw [(List.mem_replicate.1 h).2])
  · exact .inr (by rw [List.mem_singleton.1 h])

theorem length_uniform (v : Byte) (n last : Nat) : (uniform v n last).length = n + 1 := by
  simp [uniform]

theorem expandRuns_fill (v : Byte) : expandRuns (uniform v 1028 4) = List.replicate 262144 v :=
  expandRuns_uniform v 1028 4

theorem expandRuns_planes (v : Byte) : expandRuns (uniform v 8224 32) = List.replicate 2097152 v :=
  expandRuns_uniform v 8224 32

/-- The sum a constant sequence makes at cell `i`. -/
theorem cellSum_replicate (g : Geometry) (n i : Nat) (v : Byte) :
    cellSum g (List.replicate n v) i = ((List.range 8).map fun p => if p * g.npix + i < n then v.toNat else 0).sum := by
  rw [cellSum]
  refine congrArg List.sum (List.map_congr_left fun p _ => ?_)
  rw [List.getD_eq_getElem?_getD, List.getElem?_replicate]
  split <;> rfl

/-- At most eight contributions of `v` each: they fit when `8*v` does. -/
theorem cellSumsFit_replicate (n : Nat) (v : Byte) (small : 8 * v.toNat ≤ 255) :
    CellSumsFit Config.geometry (List.replicate n v) := by
  intro i _
  rw [cellSum_replicate]
  have each : ∀ p, (if p * Config.geometry.npix + i < n then v.toNat else 0) ≤ v.toNat := fun p => by split <;> omega
  have := each 0; have := each 1; have := each 2; have := each 3
  have := each 4; have := each 5; have := each 6; have := each 7
  simp only [List.range, List.range.loop, List.map_cons, List.map_nil, List.sum_cons, List.sum_nil]
  omega

/-- One plane of 255 fits. -/
theorem cellSumsFit_onePlane : CellSumsFit Config.geometry (List.replicate 262144 255#8) := by
  intro i inside
  rw [npix_eq] at inside
  rw [cellSum_replicate, npix_eq]
  simp only [List.range, List.range.loop, List.map_cons, List.map_nil, List.sum_cons, List.sum_nil]
  rw [if_pos (by omega), if_neg (by omega), if_neg (by omega), if_neg (by omega), if_neg (by omega),
    if_neg (by omega), if_neg (by omega), if_neg (by omega)]
  decide

/-- One cell more of 255 does not. -/
theorem not_cellSumsFit_onePlane_and_one :
    ¬ CellSumsFit Config.geometry (List.replicate 262144 255#8 ++ List.replicate 1 255#8) := by
  intro fits
  have sum := fits 0 (by decide)
  rw [List.replicate_append_replicate, cellSum_replicate, npix_eq] at sum
  simp only [List.range, List.range.loop, List.map_cons, List.map_nil, List.sum_cons, List.sum_nil] at sum
  rw [if_pos (by omega), if_pos (by omega)] at sum
  have : (255#8).toNat = 255 := rfl
  omega

/-- Clause by clause; in the second the records before `bad` fill the raster exactly (V18 (b) at full size). -/
theorem witness_RleDecRecordErrors :
    ((∀ r ∈ ([] : List Run), 1 ≤ r.length) ∧ (expandRuns []).length ≤ Config.geometry.npix ∧
      (holding [⟨9, 0⟩]).streamLen.toNat ≤ Config.geometry.streamCap ∧
      StreamHolds (holding [⟨9, 0⟩]) ([] ++ ⟨9, 0⟩ :: [])) ∧
    ((∀ r ∈ uniform 0 1028 4, 1 ≤ r.length) ∧
      (expandRuns (uniform 0 1028 4)).length = Config.geometry.npix ∧
      (holding (uniform 0 1028 4 ++ [⟨9, 1⟩])).streamLen.toNat ≤ Config.geometry.streamCap ∧
      StreamHolds (holding (uniform 0 1028 4 ++ [⟨9, 1⟩])) (uniform 0 1028 4 ++ ⟨9, 1⟩ :: [])) ∧
    (StreamHolds (holding []) [] ∧ (expandRuns []).length < Config.geometry.npix) := by
  have zero : StreamHolds (holding [⟨9, 0⟩]) [⟨9, 0⟩] := streamHolds_holding (by decide) (by decide)
  have full : StreamHolds (holding (uniform 0 1028 4 ++ [⟨9, 1⟩])) (uniform 0 1028 4 ++ [⟨9, 1⟩]) := by
    refine streamHolds_holding (fun r mem => ?_) ?_
    · rcases List.mem_append.1 mem with h | h
      · rcases mem_uniform h with h | h <;> omega
      · rw [List.mem_singleton.1 h]; decide
    · rw [List.length_append, length_uniform]; decide
  refine ⟨⟨by simp, by decide, ?_, zero⟩, ⟨fun r mem => ?_, ?_, ?_, full⟩,
    streamHolds_holding (by simp) (by decide), by decide⟩
  · rw [zero.1]; decide
  · rcases mem_uniform mem with h | h <;> omega
  · rw [expandRuns_fill, List.length_replicate]; rfl
  · rw [full.1, List.length_append, length_uniform]; decide

/-- Clause by clause: a zero length first; the sum passing 255 at the first cell of the second plane (41_bitplane.md
R102, corner cases); a repetition due when the cursor is at the last cell (V30 at full size); nothing in STREAM. -/
theorem witness_BpDecRecordErrors :
    (StreamHolds (holding [⟨9, 0⟩]) ([] ++ ⟨9, 0⟩ :: []) ∧ CellSumsFit Config.geometry (expandRuns [])) ∧
    ((∀ r ∈ uniform 255 1028 4, 1 ≤ r.length) ∧
      (expandRuns (uniform 255 1028 4)).length + 0 < Config.geometry.cells ∧
      CellSumsFit Config.geometry (expandRuns (uniform 255 1028 4)) ∧
      StreamHolds (holding (uniform 255 1028 4 ++ [⟨255, 1⟩])) (uniform 255 1028 4 ++ ⟨255, 1⟩ :: []) ∧
      (holding (uniform 255 1028 4 ++ [⟨255, 1⟩])).streamLen.toNat ≤ Config.geometry.streamCap ∧
      ¬ CellSumsFit Config.geometry (expandRuns (uniform 255 1028 4) ++ List.replicate (0 + 1) 255#8)) ∧
    ((∀ r ∈ uniform 0 8224 32, 1 ≤ r.length) ∧
      (expandRuns (uniform 0 8224 32)).length + 0 = Config.geometry.cells ∧
      CellSumsFit Config.geometry (expandRuns (uniform 0 8224 32)) ∧
      StreamHolds (holding (uniform 0 8224 32 ++ [⟨255, 1⟩])) (uniform 0 8224 32 ++ ⟨255, 1⟩ :: []) ∧
      (holding (uniform 0 8224 32 ++ [⟨255, 1⟩])).streamLen.toNat ≤ Config.geometry.streamCap) ∧
    (StreamHolds (holding []) [] ∧ (expandRuns []).length < Config.geometry.cells) := by
  have holds : ∀ v n last, last ≤ 255 → n ≤ 8224 →
      StreamHolds (holding (uniform v n last ++ [⟨255, 1⟩])) (uniform v n last ++ [⟨255, 1⟩]) := by
    intro v n last small short
    refine streamHolds_holding (fun r mem => ?_) ?_
    · rcases List.mem_append.1 mem with h | h
      · rcases mem_uniform h with h | h <;> omega
      · rw [List.mem_singleton.1 h]; decide
    · rw [List.length_append, length_uniform, List.length_singleton]; omega
  have legal : ∀ v n last, 1 ≤ last → ∀ r ∈ uniform v n last, 1 ≤ r.length := by
    intro v n last pos r mem
    rcases mem_uniform mem with h | h <;> omega
  have capacity : ∀ v n last, last ≤ 255 → n ≤ 8224 →
      (holding (uniform v n last ++ [⟨255, 1⟩])).streamLen.toNat ≤ Config.geometry.streamCap := by
    intro v n last small short
    rw [(holds v n last small short).1, List.length_append, length_uniform, List.length_singleton, streamCap_eq]
    omega
  refine ⟨⟨streamHolds_holding (by decide) (by decide), ?_⟩,
    ⟨legal _ _ _ (by omega), ?_, ?_, holds _ _ _ (by omega) (by omega), capacity _ _ _ (by omega) (by omega), ?_⟩,
    ⟨legal _ _ _ (by omega), ?_, ?_, holds _ _ _ (by omega) (by omega), capacity _ _ _ (by omega) (by omega)⟩,
    streamHolds_holding (by simp) (by decide), by decide⟩
  · exact cellSumsFit_replicate 0 0#8 (by decide)
  · rw [expandRuns_fill, List.length_replicate, cells_eq]; omega
  · rw [expandRuns_fill]; exact cellSumsFit_onePlane
  · rw [expandRuns_fill]; exact not_cellSumsFit_onePlane_and_one
  · rw [expandRuns_planes, List.length_replicate, cells_eq]
  · rw [expandRuns_planes]; exact cellSumsFit_replicate _ _ (by decide)

theorem freqAt_freqState (entries : List (Nat × Word)) (v : Nat) (h : v < 256) :
    (freqState entries).freqAt v = (entries.lookup v).getD 0#32 := by
  rw [State.freqAt, dif_pos h]
  exact Vector.getElem_ofFn h

/-- V53, V54 (a). -/
theorem witness_HbuildErrors :
    (∀ v, v < 256 → (freqState []).freqAt v = 0#32) ∧
    2 ^ 32 ≤ totalFrequency (freqState [(0, 0x80000000#32), (1, 0x80000000#32)]) := by
  refine ⟨fun v h => freqAt_freqState _ _ h, ?_⟩
  rw [← freqTotal_eq]
  decide +kernel

theorem witness_encoders_and_hist : declared.imgW = 512#16 ∧ declared.imgH = 512#16 := ⟨rfl, rfl⟩

/-- The inner hypotheses of the two round trips: nothing happens in between. -/
theorem witness_RoundTrips :
    (∃ t, exec .rleEnc declared = .next t ∧ t.streamLen = t.streamLen ∧
      ∀ j, j < t.streamLen.toNat → t.streamAt j = t.streamAt j) ∧
    (∃ t, exec .bpEnc declared = .next t ∧ t.streamLen = t.streamLen ∧
      ∀ j, j < t.streamLen.toNat → t.streamAt j = t.streamAt j) :=
  ⟨⟨_, exec_eq _ _, rfl, fun _ _ => rfl⟩, ⟨_, exec_eq _ _, rfl, fun _ _ => rfl⟩⟩

theorem witness_RleBoundaryLaw : 1 ≤ 256 := by decide

/-- V21c. -/
theorem witness_RleDecWritesTheSamplesOfTheRecords :
    StreamHolds (holding (uniform 0 1028 4)) (uniform 0 1028 4) ∧
    (∀ r ∈ uniform 0 1028 4, r.wellFormed = true) ∧
    (expandRuns (uniform 0 1028 4)).length = Config.geometry.npix := by
  refine ⟨streamHolds_holding (fun r mem => ?_) ?_, fun r mem => ?_, ?_⟩
  · rcases mem_uniform mem with h | h <;> omega
  · rw [length_uniform]; decide
  · rw [Run.wellFormed_iff]
    rcases mem_uniform mem with h | h <;> omega
  · rw [expandRuns_fill, List.length_replicate]; rfl

/-- Symbol 31 in every record, as in the corner case of R102: every sample becomes 248. -/
theorem witness_BpDecAddsTheContributions :
    StreamHolds (holding (uniform 31 8224 32)) (uniform 31 8224 32) ∧
    (∀ r ∈ uniform 31 8224 32, r.wellFormed = true) ∧
    (expandRuns (uniform 31 8224 32)).length = 8 * Config.geometry.npix ∧
    CellSumsFit Config.geometry (expandRuns (uniform 31 8224 32)) := by
  refine ⟨streamHolds_holding (fun r mem => ?_) ?_, fun r mem => ?_, ?_, ?_⟩
  · rcases mem_uniform mem with h | h <;> omega
  · rw [length_uniform]; decide
  · rw [Run.wellFormed_iff]
    rcases mem_uniform mem with h | h <;> omega
  · rw [expandRuns_planes, List.length_replicate]; rfl
  · rw [expandRuns_planes]; exact cellSumsFit_replicate _ _ (by decide)

/-- P4's table: HBUILD's hypotheses with one value. -/
theorem witness_hbuild_one :
    (freqState [(65, 3)]).freqAt 65 ≠ 0#32 ∧ (∀ w, w < 256 → w ≠ 65 → (freqState [(65, 3)]).freqAt w = 0#32) ∧
    totalFrequency (freqState [(65, 3)]) < 2 ^ 32 ∧ distinctValues (freqState [(65, 3)]) = 1 := by
  refine ⟨?_, fun w h other => ?_, ?_, ?_⟩
  · rw [freqAt_freqState _ _ (by omega)]; decide
  · rw [freqAt_freqState _ _ h]; simp [List.lookup, beq_eq_false_iff_ne.2 other]
  · rw [← freqTotal_eq]; decide +kernel
  · rw [← freqSupport_eq]; decide +kernel

/-- V43's table: HBUILD's hypotheses with two values. -/
theorem witness_hbuild_two :
    (freqState [(3, 5), (200, 1)]).freqAt 3 ≠ 0#32 ∧ (freqState [(3, 5), (200, 1)]).freqAt 200 ≠ 0#32 ∧
    (∀ u, u < 256 → u ≠ 3 → u ≠ 200 → (freqState [(3, 5), (200, 1)]).freqAt u = 0#32) ∧
    totalFrequency (freqState [(3, 5), (200, 1)]) < 2 ^ 32 ∧ distinctValues (freqState [(3, 5), (200, 1)]) = 2 := by
  refine ⟨?_, ?_, fun u h a b => ?_, ?_, ?_⟩
  · rw [freqAt_freqState _ _ (by omega)]; decide
  · rw [freqAt_freqState _ _ (by omega)]; decide
  · rw [freqAt_freqState _ _ h]; simp [List.lookup, beq_eq_false_iff_ne.2 a, beq_eq_false_iff_ne.2 b]
  · rw [← freqTotal_eq]; decide +kernel
  · rw [← freqSupport_eq]; decide +kernel

theorem witness_HbuildDependsOnFreqAlone :
    declared ≠ State.reset ∧ ∀ v, v < 256 → declared.freqAt v = State.reset.freqAt v :=
  ⟨fun h => absurd (congrArg State.imgW h) (by show ¬ (512#16 = 0#16); decide), fun _ _ => rfl⟩

theorem witness_RasterCommandsReadOnlySizeAndRaster :
    declared ≠ { declared with haz := true } ∧
    declared.imgW = { declared with haz := true }.imgW ∧ declared.imgH = { declared with haz := true }.imgH ∧
    rasterList declared = rasterList { declared with haz := true } :=
  ⟨fun h => absurd (congrArg State.haz h) (by show ¬ (false = true); decide), rfl, rfl, by
    rw [rasterList, rasterList]; exact List.map_congr_left fun _ _ => rfl⟩

theorem witness_DecodersReadOnlyTheArtifact :
    declared ≠ State.reset ∧ declared.streamLen = State.reset.streamLen ∧
    ∀ j, j < declared.streamLen.toNat → declared.streamAt j = State.reset.streamAt j :=
  ⟨witness_HbuildDependsOnFreqAlone.1, rfl, fun _ _ => rfl⟩

theorem witness_CommandsWriteOnlyTheirOutputs : ∀ i : Instr, ∃ t, exec i declared = .next t :=
  fun i => ⟨_, exec_eq i _⟩

theorem witness_CommandSeesTheStateAtIssue :
    (busyWith 6#32 []).busy = true ∧
    ∀ e ∈ [Event.hostWrite .freq 0 9#32, .hostRead .raster 0], isHostAccess e = true := by
  refine ⟨rfl, ?_⟩
  decide

theorem witness_invariants :
    FlagsInv (busyWith 0#32 []) ∧ BuffersInv State.reset ∧ (∃ t, step (busyWith 0#32 []) = .next t) :=
  ⟨witness_flagsInv_busy _ _, ⟨rfl, rfl⟩, _, rfl⟩

theorem witness_CodesInv : CodesInv State.reset ∧ ∃ t, step State.reset = .next t := by
  have absent : ∀ v, State.reset.codeAt v = none := by
    intro v
    rw [State.codeAt]
    split
    · exact Vector.getElem_replicate _
    · rfl
  refine ⟨⟨by decide +kernel, fun v => by rw [absent v]; rfl, fun two => ?_, fun v a code => ?_⟩, _, rfl⟩
  · exact absurd two (by decide)
  · rw [absent v] at code; cases code

end Sys2Proof.Tests
end

section
/-! What a step can do, one named case per kind of turn, and the rules of the flags, the error log, the code table and
the CSRs that the statements of 10_state.md rest on. -/

namespace Sys2Proof.Machine

/-! ### The cases of a step -/

/-- An error is raised at the completion of `s`: by an illegal command word or by a command (R73, R152). -/
def Raised (s : State) (e : CmdError) : Prop :=
  e = .illegalCommand ∨ ∃ i, commandResult i s = .error e

/-- `t` has what no write but one to CMD or STATUS can change (R24, R50): `s` in every field but IE, the dimensions,
STREAM_LEN, RASTER, STREAM and FREQ. -/
structure SameControl (s t : State) : Prop where
  latch : t.latch = s.latch
  busy : t.busy = s.busy
  done : t.done = s.done
  haz : t.haz = s.haz
  err : t.err = s.err
  errlog : t.errlog = s.errlog
  ncodes : t.ncodes = s.ncodes
  estLo : t.estLo = s.estLo
  estHi : t.estHi = s.estHi
  code : t.code = s.code
  epoch : t.epoch = s.epoch
  draws : t.draws = s.draws
  pending : t.pending = s.pending
  returned : t.returned = s.returned

/-- The state after a step from `s`, by the turn taken (R185): the cases of `step_cases` with a completion split by its
result (R22), a read by the busy lockout (R60), and a write by whether it goes to CMD, to STATUS, or elsewhere (R24). -/
inductive StepCase (s : State) : State → Prop
  | idles (rest : List Event) (turn : engineNext s rest) (idle : s.busy = false) : StepCase s (setPending rest s)
  | fails (rest : List Event) (e : CmdError) (turn : engineNext s rest) (busy : s.busy = true)
      (raised : Raised (setPending rest s) e) : StepCase s (takeError e (setPending rest s))
  | succeeds (rest : List Event) (i : Instr) (u : State) (turn : engineNext s rest) (busy : s.busy = true)
      (result : commandResult i (setPending rest s) = .ok u) : StepCase s (succeed u)
  | reads (sp : Space) (i : Nat) (rest : List Event) (turn : s.pending = .hostRead sp i :: rest)
      (free : s.busy = false ∨ sp = .csr) :
      StepCase s { setPending rest s with
        returned := portElement Config.geometry (setPending rest s) sp i :: s.returned }
  | readsBusy (sp : Space) (i : Nat) (rest : List Event) (turn : s.pending = .hostRead sp i :: rest)
      (busy : s.busy = true) (buffer : sp ≠ .csr) :
      StepCase s { setPending rest s with
        haz := true, draws := s.draws + 1, returned := busyElement s.draws sp :: s.returned }
  | drops (sp : Space) (i : Nat) (v : Word) (rest : List Event) (turn : s.pending = .hostWrite sp i v :: rest)
      (busy : s.busy = true) : StepCase s (setHaz (setPending rest s))
  | issues (c : Word) (rest : List Event) (turn : s.pending = .hostWrite .csr 0 c :: rest) (idle : s.busy = false) :
      StepCase s (issue c (setPending rest s))
  | clears (v : Word) (rest : List Event) (turn : s.pending = .hostWrite .csr 1 v :: rest) (idle : s.busy = false) :
      StepCase s (clearStatus v (setPending rest s))
  | writes (sp : Space) (i : Nat) (v : Word) (rest : List Event) (t : State)
      (turn : s.pending = .hostWrite sp i v :: rest) (idle : s.busy = false)
      (written : t = idleWrite Config.geometry sp i v (setPending rest s))
      (frame : SameControl (setPending rest s) t) : StepCase s t
  | resets (rest : List Event) (turn : s.pending = .reset :: rest) : StepCase s (resetBlock (setPending rest s))

/-- A write while idle issues (CMD), clears flags (STATUS), or changes no more than IE, a dimension, STREAM_LEN or a
buffer the host may write (R24, R50). -/
theorem idleWrite_cases (g : Geometry) (sp : Space) (i : Nat) (v : Word) (s : State) :
    (sp = .csr ∧ i = 0 ∧ idleWrite g sp i v s = issue v s) ∨
    (sp = .csr ∧ i = 1 ∧ idleWrite g sp i v s = clearStatus v s) ∨
    SameControl s (idleWrite g sp i v s) := by
  cases sp with
  | csr =>
    rw [idleWrite]
    unfold csrWrite
    split
    case h_1 => exact .inl ⟨rfl, rfl, rfl⟩
    case h_2 => exact .inr (.inl ⟨rfl, rfl, rfl⟩)
    all_goals exact .inr (.inr (by constructor <;> rfl))
  | raster => simp only [idleWrite]; split <;> exact .inr (.inr (by constructor <;> rfl))
  | stream => simp only [idleWrite]; split <;> exact .inr (.inr (by constructor <;> rfl))
  | freq => exact .inr (.inr (by constructor <;> rfl))
  | code => exact .inr (.inr (by constructor <;> rfl))

/-- Every step is one of the cases. -/
theorem stepCase_of_step {s t : State} (h : step s = .next t) : StepCase s t := by
  obtain ⟨rest, ⟨turn, idle, eq⟩ | ⟨turn, busy, result, eq, origin⟩ | ⟨sp, i, turn, eq⟩ | ⟨sp, i, v, turn, busy, eq⟩ |
    ⟨sp, i, v, turn, idle, eq⟩ | ⟨turn, eq⟩⟩ := step_cases s
  all_goals
    rw [h] at eq
    injection eq with eq
    subst eq
  · exact .idles rest turn idle
  · cases result with
    | error e =>
      exact .fails rest e turn busy
        (origin.imp (fun illegal => by injection illegal) fun ⟨i, raises⟩ => ⟨i, raises.symm⟩)
    | ok u =>
      obtain illegal | ⟨i, writes⟩ := origin
      · cases illegal
      · exact .succeeds rest i u turn busy writes.symm
  · by_cases free : s.busy = false ∨ sp = .csr
    · have answered : hostRead Config.geometry sp i (setPending rest s) = { setPending rest s with
          returned := portElement Config.geometry (setPending rest s) sp i :: s.returned } := by
        obtain idle | rfl := free
        · exact hostRead_idle (by exact idle)
        · exact hostRead_csr
      rw [answered]
      exact .reads sp i rest turn free
    · obtain ⟨busy, buffer⟩ := not_or.1 free
      rw [hostRead_busy (by simpa using busy) buffer]
      exact .readsBusy sp i rest turn (by simpa using busy) buffer
  · exact .drops sp i v rest turn busy
  · obtain ⟨rfl, rfl, eq⟩ | ⟨rfl, rfl, eq⟩ | frame := idleWrite_cases Config.geometry sp i v (setPending rest s)
    · rw [eq]; exact .issues v rest turn idle
    · rw [eq]; exact .clears v rest turn idle
    · exact .writes sp i v rest _ turn idle rfl frame
  · exact .resets rest turn

/-- A turn of another agent is not the engine's. -/
theorem not_engineNext {s : State} {e : Event} {rest : List Event} (turn : s.pending = e :: rest) (other : e ≠ .engine) :
    ¬ ∃ rest', engineNext s rest' := by
  rintro ⟨rest', named | ⟨empty, -⟩⟩
  · rw [turn] at named
    exact other (List.cons.inj named).1
  · rw [turn] at empty
    cases empty

/-! ### Errors and the error log (R27, R28, R151) -/

/-- No command raises `IOError` (R151, S8). -/
theorem Raised.ne_io {s : State} {e : CmdError} (raised : Raised s e) : e ≠ .io := by
  rintro rfl
  obtain illegal | ⟨i, raises⟩ := raised
  · cases illegal
  · have := commandResult_error raises
    simp at this

/-- Code 5 is `IOError`'s alone. -/
theorem CmdError.toNat_code_ne_five {e : CmdError} (other : e ≠ .io) : e.code.toNat ≠ 5 := by
  cases e with
  | io => exact absurd rfl other
  | _ => decide

/-- Logging an error sets its bit and keeps the others. -/
theorem getLsbD_logError (log : BitVec 16) (e : CmdError) (k : Nat) :
    (logError log e).getLsbD k = (log.getLsbD k || decide (k = e.code.toNat)) := by
  have bounds := e.code_bounds
  rw [logError, BitVec.getLsbD_or, BitVec.getLsbD_shiftLeft, BitVec.getLsbD_one]
  congr 1
  rw [Bool.eq_iff_iff]
  simp only [Bool.and_eq_true, Bool.not_eq_true', decide_eq_true_eq, decide_eq_false_iff_not]
  omega

/-- A command that succeeds leaves the error log. -/
theorem commandResult_errlog {i : Instr} {s u : State} (result : commandResult i s = .ok u) : u.errlog = s.errlog :=
  (congrArg State.errlog (commandResult_frame result) :)

/-- A command that succeeds leaves HAZ. -/
theorem commandResult_haz {i : Instr} {s u : State} (result : commandResult i s = .ok u) : u.haz = s.haz :=
  (congrArg State.haz (commandResult_frame result) :)

/-- A command that succeeds leaves LATCH. -/
theorem commandResult_latch {i : Instr} {s u : State} (result : commandResult i s = .ok u) : u.latch = s.latch :=
  (congrArg State.latch (commandResult_frame result) :)

/-- The error log after a step that is no reset: a completion leaves it or logs the error it puts in ERR; any other step
leaves it. -/
theorem errlog_of_step {s t : State} (h : step s = .next t) (noReset : ∀ rest, s.pending ≠ .reset :: rest) :
    (¬ (s.busy = true ∧ ∃ rest, engineNext s rest) ∧ t.errlog = s.errlog) ∨
    ((s.busy = true ∧ ∃ rest, engineNext s rest) ∧
      ((t.err = 0#4 ∧ t.errlog = s.errlog) ∨ ∃ e : CmdError, t.err = e.code ∧ t.errlog = logError s.errlog e)) := by
  cases stepCase_of_step h with
  | idles rest turn idle => exact .inl ⟨by simp [idle], rfl⟩
  | fails rest e turn busy raised => exact .inr ⟨⟨busy, rest, turn⟩, .inr ⟨e, rfl, rfl⟩⟩
  | succeeds rest i u turn busy result =>
    exact .inr ⟨⟨busy, rest, turn⟩, .inl ⟨rfl, (commandResult_errlog result :)⟩⟩
  | reads sp i rest turn free => exact .inl ⟨fun completes => not_engineNext turn (by simp) completes.2, rfl⟩
  | readsBusy sp i rest turn busy buffer => exact .inl ⟨fun completes => not_engineNext turn (by simp) completes.2, rfl⟩
  | drops sp i v rest turn busy => exact .inl ⟨fun completes => not_engineNext turn (by simp) completes.2, rfl⟩
  | issues c rest turn idle => exact .inl ⟨by simp [idle], rfl⟩
  | clears v rest turn idle => exact .inl ⟨by simp [idle], rfl⟩
  | writes sp i v rest _ turn idle written frame => exact .inl ⟨by simp [idle], frame.errlog⟩
  | resets rest turn => exact absurd turn (noReset rest)

/-! ### The flag invariant (R41) -/

/-- The flag invariant speaks of BUSY, DONE, ERR and ERRLOG alone. -/
theorem FlagsInv.congr {s t : State} (inv : FlagsInv s) (busy : t.busy = s.busy) (done : t.done = s.done)
    (err : t.err = s.err) (errlog : t.errlog = s.errlog) : FlagsInv t := by
  rw [FlagsInv, busy, done, err, errlog]
  exact inv

/-- With ERR = 0 the flag invariant says that BUSY and DONE are not both 1 and no reserved log bit is set. -/
theorem flagsInv_of_err_zero {s : State} (err : s.err = 0#4) (apart : ¬ (s.busy = true ∧ s.done = true))
    (reserved : ∀ k, k = 0 ∨ k = 5 ∨ 9 ≤ k → s.errlog.getLsbD k = false) : FlagsInv s :=
  ⟨apart, fun _ => err, by simp [err], by simp [err], fun nonzero => absurd err nonzero, reserved⟩

/-- Taking an error that the block raises keeps the flag invariant (R154). -/
theorem flagsInv_takeError {s : State} {e : CmdError} (raisable : e ≠ .io)
    (reserved : ∀ k, k = 0 ∨ k = 5 ∨ 9 ≤ k → s.errlog.getLsbD k = false) : FlagsInv (takeError e s) := by
  have bounds := e.code_bounds
  have notFive := CmdError.toNat_code_ne_five raisable
  refine ⟨by simp, by simp, bounds.2.2, fun five => notFive (by rw [← takeError_err e s, five]; rfl), fun _ => ?_,
    fun k unused => ?_⟩
  · simp [getLsbD_logError]
  · have other : k ≠ e.code.toNat := by omega
    simp [getLsbD_logError, reserved k unused, other]

theorem step_keeps_flagsInv {s t : State} (inv : FlagsInv s) (h : step s = .next t) : FlagsInv t := by
  have ⟨_, _, small, notFive, logged, reserved⟩ := inv
  cases stepCase_of_step h with
  | idles => exact inv.congr rfl rfl rfl rfl
  | fails rest e turn busy raised => exact flagsInv_takeError raised.ne_io reserved
  | succeeds rest i u turn busy result =>
    exact flagsInv_of_err_zero rfl (by simp) (by simpa [commandResult_errlog result] using reserved)
  | reads => exact inv.congr rfl rfl rfl rfl
  | readsBusy => exact inv.congr rfl rfl rfl rfl
  | drops => exact inv.congr rfl rfl rfl rfl
  | issues => exact flagsInv_of_err_zero rfl (by simp) reserved
  | clears v rest turn idle =>
    exact ⟨by simp [idle], by simp [idle], small, notFive, logged, reserved⟩
  | writes sp i v rest _ turn idle written frame =>
    exact inv.congr frame.busy frame.done frame.err
      frame.errlog
  | resets => exact flagsInv_of_err_zero rfl (by simp) (by simp)

/-! ### The code table invariant (R41, R38, R32) -/

/-- Where the table holds no code every element reads absent. -/
theorem codeAt_of_absent {s : State} (absent : s.code = Vector.replicate 256 none) (v : Nat) : s.codeAt v = none := by
  rw [State.codeAt, absent]
  split
  · exact Vector.getElem_replicate _
  · rfl

/-- The code table invariant speaks of CODE and NCODES alone. -/
theorem CodesInv.congr {s t : State} (inv : CodesInv s) (code : t.code = s.code) (ncodes : t.ncodes = s.ncodes) :
    CodesInv t := by
  simp only [CodesInv, presentCodes, State.codeAt, code, ncodes] at inv ⊢
  exact inv

/-- A table with no code present is consistent when NCODES is 0. -/
theorem codesInv_of_absent {s : State} (ncodes : s.ncodes = 0#9) (absent : s.code = Vector.replicate 256 none) :
    CodesInv s := by
  have none_at := codeAt_of_absent absent
  refine ⟨?_, fun v => by rw [none_at]; rfl, fun two => by simp [ncodes] at two, fun v a code => ?_⟩
  · rw [presentCodes, absent, ncodes, Vector.toList_replicate, List.countP_replicate]
    rfl
  · rw [none_at] at code
    cases code

section
variable {s : State} {root : Tree} (built : HuffmanMerge (distinctValues s) (makeLeaves s.freq) root)
include built

/-- HBUILD gives a code to as many elements as there are distinct values (R118). -/
theorem presentCodes_writeTable : presentCodes (writeTable (assign root []) s) = distinctValues s := by
  rw [presentCodes, code_toList, List.countP_map, distinctValues]
  refine List.countP_congr fun v mem => ?_
  simpa using codeAt_root_isSome built v (List.mem_range.1 mem)

omit built in
theorem toNat_ncodes_writeTable (table : List (Byte × List Bool)) :
    (writeTable table s).ncodes.toNat = distinctValues s := by
  have := distinctValues_le s
  rw [writeTable_ncodes, freqSupport_eq, BitVec.toNat_ofNat]
  omega

/-- A present code is the path to its value's leaf, and the element is inside the table (R117). -/
theorem pathTo_of_codeAt {v : Nat} {a : List Bool} (code : (writeTable (assign root []) s).codeAt v = some a) :
    v < 256 ∧ PathTo root a (BitVec.ofNat 8 v) := by
  by_cases inside : v < 256
  · exact ⟨inside, (codeAt_root built v inside a).1 code⟩
  · rw [codeAt_outside _ _ inside] at code
    cases code

/-- No code of HBUILD's table begins the code of another element (R121). -/
theorem codeAt_root_prefix_free {v w : Nat} {a b : List Bool} (different : v ≠ w)
    (codeV : (writeTable (assign root []) s).codeAt v = some a)
    (codeW : (writeTable (assign root []) s).codeAt w = some b) : ¬ a <+: b := by
  intro pre
  obtain ⟨insideV, pathV⟩ := pathTo_of_codeAt built codeV
  obtain ⟨insideW, pathW⟩ := pathTo_of_codeAt built codeW
  exact different (ofNat_eight_inj insideV insideW (pathV.prefix_free pathW pre))

/-- A code of HBUILD's table is empty exactly when it is the only one (R116, R121). -/
theorem codeAt_root_empty_iff {v : Nat} {a : List Bool} (code : (writeTable (assign root []) s).codeAt v = some a) :
    a = [] ↔ distinctValues s = 1 := by
  obtain ⟨-, path⟩ := pathTo_of_codeAt built code
  have leaves := root_leaf_count built
  constructor
  · rintro rfl
    by_contra several
    have := path.length_pos (by have := treeValues_length_pos root; omega)
    simp at this
  · intro single
    have := codeAt_root_length built v a code
    exact List.eq_nil_of_length_eq_zero (by omega)

/-- HBUILD's write-back is a consistent code table. -/
theorem codesInv_writeTable : CodesInv (writeTable (assign root []) s) := by
  refine ⟨?_, fun v => ?_, fun _ v w a b => codeAt_root_prefix_free built, fun v a code => ?_⟩
  · rw [toNat_ncodes_writeTable, presentCodes_writeTable built]
  · cases code : (writeTable (assign root []) s).codeAt v with
    | none => rfl
    | some a =>
      have short := codeAt_root_length built v a code
      have := distinctValues_le s
      exact decide_eq_true (by omega)
  · rw [toNat_ncodes_writeTable]
    exact codeAt_root_empty_iff built code

end

/-- A command that succeeds leaves the code table, or is HBUILD and writes a consistent one (R65). -/
theorem commandResult_keeps_codesInv {i : Instr} {s u : State} (inv : CodesInv s) (result : commandResult i s = .ok u) :
    CodesInv u := by
  obtain ⟨-, rfl⟩ | ⟨-, rfl⟩ | ⟨-, out, -, rfl⟩ | ⟨-, f, rfl⟩ | ⟨-, -, -, root, built, rfl⟩ := commandResult_ok result
  · exact inv.congr (writeArtifact_code _ _) (writeArtifact_ncodes _ _)
  · exact inv.congr (writeArtifact_code _ _) (writeArtifact_ncodes _ _)
  · exact inv.congr rfl rfl
  · exact inv.congr rfl rfl
  · exact codesInv_writeTable built

theorem step_keeps_codesInv {s t : State} (inv : CodesInv s) (h : step s = .next t) : CodesInv t := by
  cases stepCase_of_step h with
  | idles => exact inv.congr rfl rfl
  | fails => exact inv.congr rfl rfl
  | succeeds rest i u turn busy result =>
    have here : CodesInv (setPending rest s) := inv.congr rfl rfl
    exact (commandResult_keeps_codesInv here result).congr rfl rfl
  | reads => exact inv.congr rfl rfl
  | readsBusy => exact inv.congr rfl rfl
  | drops => exact inv.congr rfl rfl
  | issues => exact inv.congr rfl rfl
  | clears => exact inv.congr rfl rfl
  | writes sp i v rest _ turn idle written frame =>
    exact inv.congr frame.code frame.ncodes
  | resets => exact codesInv_of_absent rfl rfl

/-! ### LATCH (R25) -/

/-- Only an issue and a reset change LATCH. -/
theorem latch_of_step {s t : State} (h : step s = .next t) :
    t.latch = s.latch ∨
    (s.busy = false ∧ ∃ c rest, s.pending = .hostWrite .csr 0 c :: rest ∧ t.latch = c) ∨
    (∃ rest, s.pending = .reset :: rest ∧ t.latch = 0#32) := by
  cases stepCase_of_step h with
  | idles => exact .inl rfl
  | fails => exact .inl rfl
  | succeeds rest i u turn busy result => exact .inl (commandResult_latch result :)
  | reads => exact .inl rfl
  | readsBusy => exact .inl rfl
  | drops => exact .inl rfl
  | issues c rest turn idle => exact .inr (.inl ⟨idle, c, rest, turn, rfl⟩)
  | clears => exact .inl rfl
  | writes sp i v rest _ turn idle written frame => exact .inl frame.latch
  | resets rest turn => exact .inr (.inr ⟨rest, turn, rfl⟩)

/-- A word whose number is no opcode decodes to no command (R73). -/
theorem decode_illegal {c : Word} (illegal : c.toNat = 0 ∨ 7 ≤ c.toNat) : ∃ why, decode c = .error why := by
  cases decoded : decode c with
  | error why => exact ⟨why, rfl⟩
  | ok i =>
    rw [decode_eq] at decoded
    split at decoded
    · cases decoded
    · cases named : commandOfNumber c.toNat with
      | none => rw [named] at decoded; cases decoded
      | some j =>
        have number := (commandOfNumber_eq_some_iff _ _).1 named
        have legal : 1 ≤ (encode j).toNat ∧ (encode j).toNat ≤ 6 := by cases j <;> decide
        omega

/-! ### CSR reads and writes (R24, R26) -/

/-- STATUS as a number: BUSY, DONE and HAZ at bits 0, 1 and 2 (R26). -/
theorem toNat_statusWord (s : State) :
    (statusWord s).toNat = s.busy.toNat + 2 * s.done.toNat + 4 * s.haz.toNat := by
  rw [statusWord]
  cases s.busy <;> cases s.done <;> cases s.haz <;> rfl

/-- A flag read at bit 0 is 0 or 1. -/
theorem toNat_flagBit_zero (b : Bool) : (flagBit b 0).toNat = b.toNat := by
  cases b <;> rfl

/-- Reserved and out-of-range indices read 0 (R34, R56). -/
theorem csrRead_reserved (s : State) {i : Nat} (reserved : 11 ≤ i) : csrRead s i = 0#32 := by
  unfold csrRead
  split
  all_goals first | omega | rfl

/-- A host read of a CSR answers the register and does nothing else, busy or not (R55, R60). -/
theorem step_readCsr {s : State} {i : Nat} {rest : List Event} (turn : s.pending = .hostRead .csr i :: rest) :
    step s = .next { s with pending := rest, returned := .word (csrRead s i) :: s.returned } := by
  rw [step_hostRead turn, hostRead_csr]
  rfl

/-- A host write to a CSR of the idle block is that register's write (R24). -/
theorem step_writeCsr_idle {s : State} {i : Nat} {v : Word} {rest : List Event}
    (turn : s.pending = .hostWrite .csr i v :: rest) (idle : s.busy = false) :
    step s = .next (csrWrite i v (setPending rest s)) := by
  rw [step_hostWrite turn, hostWrite_idle (by exact idle)]
  rfl

/-- The low 16 bits of a word, as a number (R30). -/
theorem setWidth_sixteen (v : Word) : v.setWidth 16 = BitVec.ofNat 16 (v.toNat % 2 ^ 16) :=
  BitVec.eq_of_toNat_eq (by simp)

/-! ### The declared size (R30) -/

/-- RLE_ENC, BP_ENC and HIST raise `UnsupportedImageSizeError` unless 512 by 512 is declared (R152). -/
theorem commandResult_wrongSize {i : Instr} {s : State} (command : i = .rleEnc ∨ i = .bpEnc ∨ i = .hist)
    (wrong : s.imgW ≠ 512#16 ∨ s.imgH ≠ 512#16) : commandResult i s = .error .unsupportedImageSize := by
  have undeclared : ¬ declaredSizeOk Config.geometry s = true := by
    rw [declaredSizeOk_iff]
    tauto
  obtain rfl | rfl | rfl := command
  · exact if_neg undeclared
  · exact if_neg undeclared
  · exact if_neg undeclared

end Sys2Proof.Machine
end

section
/-! The statements of 10_state.md. -/

namespace Sys2Proof.Proofs
open Sys2Proof.Machine

/-- Settles O52, by the cases of a step: a completion writes ERR with its log bit, an issue clears DONE and ERR. -/
theorem everyStepKeepsFlagsInv : Obligations.EveryStepKeepsFlagsInv :=
  fun _ _ inv h => step_keeps_flagsInv inv h

/-- Settles O54, by the cases of a step: only HBUILD and a reset write the table, and HBUILD's codes are the paths to
the leaves of one tree. -/
theorem everyStepKeepsCodesInv : Obligations.EveryStepKeepsCodesInv :=
  fun _ _ inv h => step_keeps_codesInv inv h

/-- Settles O7, by the equations of a CMD write, a CMD read and an illegal completion, and the cases of a step. -/
theorem cmdRegisterIssuesLatchesAndReadsBack : Obligations.CmdRegisterIssuesLatchesAndReadsBack := by
  intro s c rest
  refine ⟨fun idle turn => ?_, fun busy turn => ?_, fun busy turn illegal => ?_, fun turn => step_readCsr turn,
    fun t h => latch_of_step h, rfl⟩
  · rw [step_writeCsr_idle turn idle]
    rfl
  · rw [step_hostWrite turn, hostWrite_busy (by exact busy)]
    rfl
  · obtain ⟨why, decoded⟩ := decode_illegal illegal
    refine ⟨takeError .illegalCommand (setPending rest s), ?_, rfl⟩
    rw [step_engine turn, engineTurn_illegal (by exact busy) (by exact decoded)]

/-- Settles O20: a step that is no reset leaves the log or logs the error it completes with, whose code is 1 to 8. -/
theorem errlogRecordsErrorsUntilReset : Obligations.ErrlogRecordsErrorsUntilReset := by
  intro s t h
  refine ⟨fun noReset k => ?_, fun rest turn => ?_, fun k unused clear => ?_⟩
  · obtain ⟨other, log⟩ | ⟨⟨busy, turn⟩, ⟨err, log⟩ | ⟨e, err, log⟩⟩ := errlog_of_step h noReset
    · rw [log]
      exact ⟨.inl, fun set => set.resolve_right fun ⟨busy, turn, _⟩ => other ⟨busy, turn⟩⟩
    · rw [log, err]
      exact ⟨.inl, fun set => set.resolve_right fun ⟨_, _, nonzero, code⟩ => by simp at code; omega⟩
    · have bounds := e.code_bounds
      rw [log, err, getLsbD_logError, Bool.or_eq_true, decide_eq_true_eq]
      exact or_congr_right ⟨fun code => ⟨busy, turn, by omega, code.symm⟩, fun ⟨_, _, _, code⟩ => code.symm⟩
  · rw [step_reset turn] at h
    injection h with h
    rw [← h, resetBlock_errlog]
  · by_cases reset : ∃ rest, s.pending = .reset :: rest
    · obtain ⟨rest, turn⟩ := reset
      rw [step_reset turn] at h
      injection h with h
      rw [← h, resetBlock_errlog, BitVec.getLsbD_zero]
    · obtain ⟨-, log⟩ | ⟨-, ⟨-, log⟩ | ⟨e, -, log⟩⟩ := errlog_of_step h (not_exists.1 reset)
      · rw [log, clear]
      · rw [log, clear]
      · have bounds := e.code_bounds
        have other : k ≠ e.code.toNat := by omega
        simp [log, getLsbD_logError, clear, other]

/-- Settles O21, by the cases of a step: all but a STATUS write and a reset leave HAZ or set it. -/
theorem hazIsSticky : Obligations.HazIsSticky := by
  intro s t h set cleared
  cases stepCase_of_step h with
  | clears v rest turn idle =>
    rw [clearStatus_haz, setPending_haz, set] at cleared
    exact .inr ⟨idle, v, rest, turn, by simpa using cleared⟩
  | resets rest turn => exact .inl ⟨rest, turn⟩
  | succeeds rest i u turn busy result =>
    have kept : u.haz = s.haz := (commandResult_haz result :)
    rw [succeed_haz, kept, set] at cleared
    cases cleared
  | writes sp i v rest _ turn idle written frame =>
    have kept : t.haz = s.haz := frame.haz
    rw [kept, set] at cleared
    cases cleared
  | _ => simp [set] at cleared

/-- Settles O26. -/
theorem wrongDeclaredSizeFails : Obligations.WrongDeclaredSizeFails := by
  intro i s command wrong
  rw [exec_eq, commandResult_wrongSize command wrong]
  rfl

/-- Settles O5. -/
theorem engineStepRunsTheLatchedCommand : Obligations.EngineStepRunsTheLatchedCommand := by
  intro s rest i turn busy decoded
  rw [step_engine turn, engineTurn_command (by exact busy) (by exact decoded)]
  rfl

/-- Settles O11, register by register. -/
theorem csrReadsReturnTheRegisters : Obligations.CsrReadsReturnTheRegisters := by
  intro s i rest turn
  refine ⟨csrRead s i, step_readCsr turn, ?_, ?_, ?_, ?_, ?_, ?_, ?_, ?_, ?_, ?_, ?_, csrRead_reserved s⟩
  all_goals rintro rfl
  · rfl
  · exact toNat_statusWord s
  · exact BitVec.toNat_setWidth_of_le (by omega)
  · exact BitVec.toNat_setWidth_of_le (by omega)
  · exact toNat_flagBit_zero s.ie
  · exact BitVec.toNat_setWidth_of_le (by omega)
  · exact BitVec.toNat_setWidth_of_le (by omega)
  · rfl
  · exact BitVec.toNat_setWidth_of_le (by omega)
  · rfl
  · exact BitVec.toNat_setWidth_of_le (by omega)

/-- Settles O12, register by register. -/
theorem csrWritesWhileIdle : Obligations.CsrWritesWhileIdle := by
  intro s i v rest idle turn
  rw [step_writeCsr_idle turn idle, ← setWidth_sixteen]
  refine ⟨?_, ?_, ?_, ?_, ?_, fun ignored => by rw [csrWrite_ignored v _ ignored]; rfl⟩
  all_goals
    rintro rfl
    rfl

/-- Settles O23. -/
theorem resetStateHoldsTheResetValues : Obligations.ResetStateHoldsTheResetValues :=
  ⟨rfl, rfl, rfl, rfl, rfl, rfl, rfl, rfl, rfl, rfl, rfl, rfl, rfl, codeAt_of_absent rfl⟩

/-- Settles O55. -/
theorem resetStateMeetsTheInvariants : Obligations.ResetStateMeetsTheInvariants :=
  ⟨flagsInv_of_err_zero rfl (by decide) fun _ _ => BitVec.getLsbD_zero, ⟨Memory.wf_nil _, Memory.wf_nil _⟩,
    codesInv_of_absent rfl rfl⟩

end Sys2Proof.Proofs
end

section
/-! What one host access does to the idle and to the busy block, what a command reads and what it writes: the rules that
the statements of 20_memory.md rest on. -/

namespace Sys2Proof.Machine

/-! ### Reading after a host write (R50) -/

theorem rasterAt_set (s : State) (i j : Nat) (b : Byte) :
    { s with raster := s.raster.set i b }.rasterAt j = if i = j then b else s.rasterAt j := by
  simp only [State.rasterAt, Memory.get?_set]
  split <;> rfl

theorem streamAt_set (s : State) (i j : Nat) (b : Byte) :
    { s with stream := s.stream.set i b }.streamAt j = if i = j then b else s.streamAt j := by
  simp only [State.streamAt, Memory.get?_set]
  split <;> rfl

theorem freqAt_set (s : State) {i : Nat} (inside : i < 256) (j : Nat) (w : Word) :
    { s with freq := s.freq.setIfInBounds i w }.freqAt j = if i = j then w else s.freqAt j := by
  simp only [State.freqAt]
  split
  · rw [Vector.getElem_setIfInBounds]
  · rw [if_neg (by omega)]

/-! ### Host accesses of the idle block (R50, R55) -/

/-- A host write to the idle block is that space's write. -/
theorem step_write_idle {s : State} {sp : Space} {i : Nat} {v : Word} {rest : List Event}
    (turn : s.pending = .hostWrite sp i v :: rest) (idle : s.busy = false) :
    step s = .next (idleWrite Config.geometry sp i v (setPending rest s)) := by
  rw [step_hostWrite turn, hostWrite_idle (by exact idle)]

theorem idleWrite_raster {g : Geometry} {i : Nat} (inside : i < g.npix) (v : Word) (s : State) :
    idleWrite g .raster i v s = { s with raster := s.raster.set i (v.setWidth 8) } := if_pos inside

theorem idleWrite_stream {g : Geometry} {i : Nat} (inside : i < g.streamCap) (v : Word) (s : State) :
    idleWrite g .stream i v s = { s with stream := s.stream.set i (v.setWidth 8) } := if_pos inside

theorem idleWrite_freq (g : Geometry) (i : Nat) (v : Word) (s : State) :
    idleWrite g .freq i v s = { s with freq := s.freq.setIfInBounds i v } := rfl

/-- What the port answers does not depend on the turns still to be taken. -/
theorem portElement_setPending (g : Geometry) (rest : List Event) (s : State) (sp : Space) (i : Nat) :
    portElement g (setPending rest s) sp i = portElement g s sp i := by
  cases sp <;> rfl

/-- A host read of the idle block answers the element and does nothing else. -/
theorem step_read_idle {s : State} {sp : Space} {i : Nat} {rest : List Event}
    (turn : s.pending = .hostRead sp i :: rest) (idle : s.busy = false) :
    step s = .next { s with pending := rest, returned := portElement Config.geometry s sp i :: s.returned } := by
  rw [step_hostRead turn, hostRead_idle (by exact idle), portElement_setPending]
  rfl

theorem portElement_raster {g : Geometry} {i : Nat} (inside : i < g.npix) (s : State) :
    portElement g s .raster i = .word ((s.rasterAt i).setWidth 32) := by
  rw [portElement, if_pos inside]

theorem portElement_stream {g : Geometry} {i : Nat} (inside : i < g.streamCap) (s : State) :
    portElement g s .stream i = .word ((s.streamAt i).setWidth 32) := by
  rw [portElement, if_pos inside]

theorem portElement_freq (g : Geometry) {i : Nat} (inside : i < 256) (s : State) :
    portElement g s .freq i = .word s.freq[i] := by
  rw [portElement, State.freqAt, dif_pos inside]

theorem portElement_code (g : Geometry) {i : Nat} (inside : i < 256) (s : State) :
    portElement g s .code i = .code s.code[i] := by
  rw [portElement, State.codeAt, dif_pos inside]

/-! ### Host accesses of the busy block (R60) -/

/-- A busy read of CODE answers a code of at most 255 bits (R38, S2). -/
theorem wellFormed_busyCode (draw : Nat) :
    CodeEntry.wellFormed ((Config.busyCode draw).map fun bits => bits.take 255) = true := by
  cases Config.busyCode draw with
  | none => rfl
  | some bits => exact decide_eq_true (List.length_take_le 255 bits)

/-- A host write to the busy block sets HAZ and is dropped. -/
theorem step_write_busy {s : State} {sp : Space} {i : Nat} {v : Word} {rest : List Event}
    (turn : s.pending = .hostWrite sp i v :: rest) (busy : s.busy = true) :
    step s = .next { s with pending := rest, haz := true } := by
  rw [step_hostWrite turn, hostWrite_busy (by exact busy)]
  rfl

/-- A host read of a buffer of the busy block sets HAZ and answers the next free value. -/
theorem step_read_busy {s : State} {sp : Space} {i : Nat} {rest : List Event}
    (turn : s.pending = .hostRead sp i :: rest) (busy : s.busy = true) (buffer : sp ≠ .csr) :
    step s = .next { s with
      pending := rest, haz := true, draws := s.draws + 1, returned := busyElement s.draws sp :: s.returned } := by
  rw [step_hostRead turn, hostRead_busy (by exact busy) buffer]
  rfl

/-- While the command is in flight STATUS reads BUSY = 1, DONE = 0 and HAZ as it is (R26, R60). -/
theorem toNat_statusWord_busy {s : State} (busy : s.busy = true) (inv : FlagsInv s) :
    (statusWord s).toNat = 1 + 4 * s.haz.toNat := by
  obtain ⟨apart, -⟩ := inv
  have undone : s.done = false := by simpa [busy] using apart
  rw [toNat_statusWord, busy, undone]
  rfl

/-- While the command is in flight ERR reads 0 (R27, R60). -/
theorem csrRead_err_busy {s : State} (busy : s.busy = true) (inv : FlagsInv s) : csrRead s 2 = 0#32 := by
  obtain ⟨-, noError, -⟩ := inv
  rw [csrRead, noError busy]
  rfl

/-- A host access of the busy block shows in HAZ, the port's answers and the count of busy reads alone. -/
theorem step_access_busy {s : State} {e : Event} {rest : List Event} (turn : s.pending = e :: rest)
    (access : isHostAccess e = true) (busy : s.busy = true) :
    ∃ haz draws returned, step s = .next (withPortSide haz draws returned (setPending rest s)) := by
  cases e with
  | hostWrite sp i v => exact ⟨_, _, _, step_write_busy turn busy⟩
  | hostRead sp i =>
    by_cases csr : sp = .csr
    · subst csr
      exact ⟨_, _, _, step_readCsr turn⟩
    · exact ⟨_, _, _, step_read_busy turn busy csr⟩
  | reset => cases access
  | engine => cases access

/-- Any host accesses of the busy block together do no more than one of them can. -/
theorem run_accesses_busy {accesses : List Event} (tail : List Event) {s : State} (k : Nat)
    (turns : s.pending = accesses ++ tail) (access : ∀ e ∈ accesses, isHostAccess e = true) (busy : s.busy = true) :
    ∃ haz draws returned,
      core.run (accesses.length + k) s = core.run k (withPortSide haz draws returned (setPending tail s)) := by
  induction accesses generalizing s with
  | nil =>
    refine ⟨s.haz, s.draws, s.returned, ?_⟩
    rw [List.length_nil, Nat.zero_add]
    exact congrArg (core.run k) (setPending_self turns).symm
  | cons e accesses ih =>
    obtain ⟨first, others⟩ := List.forall_mem_cons.1 access
    obtain ⟨haz, draws, returned, next⟩ := step_access_busy (rest := accesses ++ tail) turns first busy
    obtain ⟨haz', draws', returned', eq⟩ :=
      ih (s := withPortSide haz draws returned (setPending (accesses ++ tail) s)) rfl others busy
    refine ⟨haz', draws', returned', ?_⟩
    rw [List.length_cons, Nat.succ_add, run_succ _ next]
    exact eq

/-! ### The engine does not see the port (R63) -/

theorem complete_withPortSide (haz : Bool) (draws : Nat) (returned : List PortValue) (s : State)
    (result : Except CmdError State) :
    complete (withPortSide haz draws returned s) (mapWritten (withPortSide haz draws returned) result) =
      withPortSide haz draws returned (complete s result) := by
  cases result <;> rfl

/-- The engine's turn of the busy block reads and writes neither HAZ, the port's answers, nor the count of busy reads. -/
theorem engineTurn_withPortSide (haz : Bool) (draws : Nat) (returned : List PortValue) {s : State}
    (busy : s.busy = true) :
    ∃ u, engineTurn s = .next u ∧
      engineTurn (withPortSide haz draws returned s) = .next (withPortSide haz draws returned u) := by
  cases decoded : decode s.latch with
  | ok i =>
    refine ⟨_, by rw [engineTurn_command busy decoded, exec_eq], ?_⟩
    rw [engineTurn_command (by exact busy) (by exact decoded), exec_eq, commandResult_withPortSide,
      complete_withPortSide]
  | error why =>
    refine ⟨_, engineTurn_illegal busy decoded, ?_⟩
    rw [engineTurn_illegal (by exact busy) (by exact decoded)]
    rfl

/-! ### What a command writes (R65) -/

/-- STREAM and STREAM_LEN are written by the encoders alone. -/
theorem commandResult_stream {i : Instr} {s u : State} (result : commandResult i s = .ok u)
    (other : i ≠ .rleEnc) (other' : i ≠ .bpEnc) : u.stream = s.stream ∧ u.streamLen = s.streamLen := by
  obtain ⟨is, -⟩ | ⟨is, -⟩ | ⟨-, out, -, rfl⟩ | ⟨-, f, rfl⟩ | ⟨-, -, -, root, -, rfl⟩ := commandResult_ok result
  · exact absurd is other
  · exact absurd is other'
  · exact ⟨rfl, rfl⟩
  · exact ⟨rfl, rfl⟩
  · exact ⟨rfl, rfl⟩

/-- RASTER, IMG_W and IMG_H are written by the decoders alone. -/
theorem commandResult_raster {i : Instr} {s u : State} (result : commandResult i s = .ok u)
    (other : i ≠ .rleDec) (other' : i ≠ .bpDec) : u.raster = s.raster ∧ u.imgW = s.imgW ∧ u.imgH = s.imgH := by
  obtain ⟨-, rfl⟩ | ⟨-, rfl⟩ | ⟨is, -⟩ | ⟨-, f, rfl⟩ | ⟨-, -, -, root, -, rfl⟩ := commandResult_ok result
  · exact ⟨writeArtifact_raster _ _, writeArtifact_imgW _ _, writeArtifact_imgH _ _⟩
  · exact ⟨writeArtifact_raster _ _, writeArtifact_imgW _ _, writeArtifact_imgH _ _⟩
  · exact absurd is (not_or.2 ⟨other, other'⟩)
  · exact ⟨rfl, rfl, rfl⟩
  · exact ⟨rfl, rfl, rfl⟩

/-- FREQ is written by HIST alone. -/
theorem commandResult_freq {i : Instr} {s u : State} (result : commandResult i s = .ok u) (other : i ≠ .hist) :
    u.freq = s.freq := by
  obtain ⟨-, rfl⟩ | ⟨-, rfl⟩ | ⟨-, out, -, rfl⟩ | ⟨is, -⟩ | ⟨-, -, -, root, -, rfl⟩ := commandResult_ok result
  · exact writeArtifact_freq _ _
  · exact writeArtifact_freq _ _
  · rfl
  · exact absurd is other
  · rfl

/-- CODE, NCODES and EST are written by HBUILD alone. -/
theorem commandResult_table {i : Instr} {s u : State} (result : commandResult i s = .ok u) (other : i ≠ .hbuild) :
    u.code = s.code ∧ u.ncodes = s.ncodes ∧ u.estLo = s.estLo ∧ u.estHi = s.estHi := by
  obtain ⟨-, rfl⟩ | ⟨-, rfl⟩ | ⟨-, out, -, rfl⟩ | ⟨-, f, rfl⟩ | ⟨is, -⟩ := commandResult_ok result
  · exact ⟨writeArtifact_code _ _, writeArtifact_ncodes _ _, writeArtifact_estLo _ _, writeArtifact_estHi _ _⟩
  · exact ⟨writeArtifact_code _ _, writeArtifact_ncodes _ _, writeArtifact_estLo _ _, writeArtifact_estHi _ _⟩
  · exact ⟨rfl, rfl, rfl, rfl⟩
  · exact ⟨rfl, rfl, rfl, rfl⟩
  · exact absurd is other

/-! ### What a command reads (R65) -/

/-- A command with an error takes it. -/
theorem exec_of_error {i : Instr} {s : State} {e : CmdError} (result : commandResult i s = .error e) :
    exec i s = .next (takeError e s) := by
  rw [exec_eq, result, complete_error]

/-- A command without an error succeeds with its writes. -/
theorem exec_of_ok {i : Instr} {s u : State} (result : commandResult i s = .ok u) :
    exec i s = .next (succeed u) := by
  rw [exec_eq, result, complete_ok]

/-- The bytes below STREAM_LEN that an encoder leaves are its artifact, whatever STREAM held. -/
theorem streamAt_writeArtifact_below (out : List Byte) (s s' : State) {j : Nat}
    (below : j < (writeArtifact out s).streamLen.toNat) :
    (writeArtifact out s).streamAt j = (writeArtifact out s').streamAt j := by
  have inside : j < out.length := Nat.lt_of_lt_of_le below (by simpa using Nat.mod_le _ _)
  rw [streamAt_writeArtifact, streamAt_writeArtifact, dif_pos inside, dif_pos inside]

/-- The encoders and HIST read the declared size and the raster alone: from two states that agree in these they fail
alike, write the same artifact, or write the same histogram. -/
theorem commandResult_sameRaster {i : Instr} {s s' : State} (command : i = .rleEnc ∨ i = .bpEnc ∨ i = .hist)
    (width : s.imgW = s'.imgW) (height : s.imgH = s'.imgH) (raster : rasterList s = rasterList s') :
    (∃ e, commandResult i s = .error e ∧ commandResult i s' = .error e) ∨
    (i ≠ .hist ∧ ∃ out, commandResult i s = .ok (writeArtifact out s) ∧
      commandResult i s' = .ok (writeArtifact out s')) ∨
    (i = .hist ∧ ∃ f, commandResult i s = .ok { s with freq := f } ∧
      commandResult i s' = .ok { s' with freq := f }) := by
  have size : declaredSizeOk Config.geometry s' = declaredSizeOk Config.geometry s := by
    rw [declaredSizeOk, declaredSizeOk, width, height]
  have read : samples Config.geometry s' = samples Config.geometry s := by
    rw [← rasterList_eq_samples, ← rasterList_eq_samples, raster]
  by_cases declared : declaredSizeOk Config.geometry s = true
  · refine .inr ?_
    obtain rfl | rfl | rfl := command
    · refine .inl ⟨by simp, rle (samples Config.geometry s), if_pos declared, ?_⟩
      rw [commandResult, rleEnc, size, read, if_pos declared]
    · refine .inl ⟨by simp, bpArtifact (samples Config.geometry s), if_pos declared, ?_⟩
      rw [commandResult, bpEnc, size, read, if_pos declared]
    · refine .inr ⟨rfl, _, if_pos declared, ?_⟩
      rw [commandResult, hist, size, read, if_pos declared]
  · have wrong : s.imgW ≠ 512#16 ∨ s.imgH ≠ 512#16 := by
      rw [declaredSizeOk_iff] at declared
      exact not_and_or.1 declared
    exact .inl ⟨.unsupportedImageSize, commandResult_wrongSize command wrong,
      commandResult_wrongSize command (by rwa [← width, ← height])⟩

/-- A length error of the artifact is the decoders' result, whatever STREAM holds (R153). -/
theorem commandResult_lengthError {i : Instr} {s : State} {e : CmdError} (command : i = .rleDec ∨ i = .bpDec)
    (wrong : artifactLengthError Config.geometry s = some e) : commandResult i s = .error e := by
  obtain rfl | rfl := command
  · rw [commandResult, rleDec, wrong]
  · rw [commandResult, bpDec, wrong]

theorem artifactLengthError_odd {g : Geometry} {s : State} (odd : s.streamLen.toNat % 2 = 1) :
    artifactLengthError g s = some .format :=
  if_pos (by omega)

theorem artifactLengthError_long {g : Geometry} {s : State} (even : s.streamLen.toNat % 2 = 0)
    (long : g.streamCap < s.streamLen.toNat) : artifactLengthError g s = some .overrun := by
  rw [artifactLengthError, if_neg (by omega), if_pos long]

/-- The records a decoder reads are in the bytes below STREAM_LEN. -/
theorem streamRuns_congr {s s' : State} (length : s.streamLen = s'.streamLen)
    (bytes : ∀ j, j < s.streamLen.toNat → s.streamAt j = s'.streamAt j) : streamRuns s = streamRuns s' := by
  rw [streamRuns, streamRuns, streamBytes_eq_map, streamBytes_eq_map, ← length]
  exact congrArg (parseRuns · []) (List.map_congr_left fun j mem => bytes j (List.mem_range.1 mem))

/-- The decoders read the artifact alone: from two states that hold the same one they fail alike or write the same
raster. -/
theorem commandResult_sameArtifact {i : Instr} {s s' : State} (command : i = .rleDec ∨ i = .bpDec)
    (length : s.streamLen = s'.streamLen) (bytes : ∀ j, j < s.streamLen.toNat → s.streamAt j = s'.streamAt j) :
    (∃ e, commandResult i s = .error e ∧ commandResult i s' = .error e) ∨
    ∃ out, out.length = Config.geometry.npix ∧
      commandResult i s = .ok (writeRaster Config.geometry out s) ∧
      commandResult i s' = .ok (writeRaster Config.geometry out s') := by
  have checked : artifactLengthError Config.geometry s' = artifactLengthError Config.geometry s := by
    rw [artifactLengthError, artifactLengthError, length]
  have runs := streamRuns_congr length bytes
  cases check : artifactLengthError Config.geometry s with
  | some e =>
    exact .inl ⟨e, commandResult_lengthError command check, commandResult_lengthError command (checked.trans check)⟩
  | none =>
    obtain rfl | rfl := command
    · simp only [commandResult, rleDec, checked, check, ← runs]
      cases decoded : rleDecLoop Config.geometry.npix (streamRuns s) 0 [] with
      | error e => exact .inl ⟨e, rfl, rfl⟩
      | ok out => exact .inr ⟨out, rleDecLoop_ok_length decoded rfl, rfl, rfl⟩
    · simp only [commandResult, bpDec, checked, check, ← runs]
      cases decoded : bpDecLoop Config.geometry (streamRuns s) 0 (Array.replicate Config.geometry.npix 0) with
      | error e => exact .inl ⟨e, rfl, rfl⟩
      | ok acc =>
        refine .inr ⟨acc.toList.map (BitVec.ofNat 8), ?_, rfl, rfl⟩
        rw [List.length_map, Array.length_toList, bpDecLoop_size decoded, Array.size_replicate]

/-! ### Scan order (R53) -/

/-- Reading `h` rows of `w` in one sequence is reading them row by row. -/
theorem map_range_mul (f : Nat → Byte) (w h : Nat) :
    (List.range (h * w)).map f = (List.range h).flatMap fun y => (List.range w).map fun x => f (y * w + x) := by
  induction h with
  | zero => simp
  | succ h ih =>
    rw [Nat.succ_mul, List.range_add, List.map_append, ih, List.range_succ, List.flatMap_append,
      List.flatMap_singleton, List.map_map]
    rfl

end Sys2Proof.Machine
end

section
/-! The statements of 20_memory.md. -/

namespace Sys2Proof.Proofs
open Sys2Proof.Machine

/-- Settles O13, space by space: read after write of one element. -/
theorem bufferWriteChangesOneElement : Obligations.BufferWriteChangesOneElement := by
  intro s i v rest idle
  refine ⟨fun turn inside => ?_, fun turn inside => ?_, fun turn inside => ?_⟩
  · rw [step_write_idle turn idle, idleWrite_raster inside]
    refine ⟨_, rfl, ?_, fun j other => ?_, rfl⟩
    · rw [rasterAt_set, if_pos rfl]
      exact BitVec.toNat_setWidth 8 v
    · rw [rasterAt_set, if_neg (Ne.symm other)]
      rfl
  · rw [step_write_idle turn idle, idleWrite_stream inside]
    refine ⟨_, rfl, ?_, fun j other => ?_, rfl⟩
    · rw [streamAt_set, if_pos rfl]
      exact BitVec.toNat_setWidth 8 v
    · rw [streamAt_set, if_neg (Ne.symm other)]
      rfl
  · rw [step_write_idle turn idle, idleWrite_freq]
    refine ⟨_, rfl, ?_, fun j other => ?_, rfl⟩
    · rw [freqAt_set _ inside, if_pos rfl]
    · rw [freqAt_set _ inside, if_neg (Ne.symm other)]
      rfl

/-- Settles O16, by the busy lockout of a write, of a buffer read, and the CSR reads under the flag invariant. -/
theorem busyLockout : Obligations.BusyLockout := by
  intro s sp i v rest busy
  refine ⟨fun turn => step_write_busy turn busy, fun turn buffer => ?_, fun turn inv => ?_⟩
  · refine ⟨busyElement s.draws sp, step_read_busy turn busy buffer, ?_, ?_, ?_⟩
    · rintro (rfl | rfl)
      · exact ⟨Config.busyByte s.draws, rfl⟩
      · exact ⟨Config.busyByte s.draws, rfl⟩
    · rintro rfl
      exact ⟨Config.busyFreq s.draws, rfl⟩
    · rintro rfl
      exact ⟨_, wellFormed_busyCode s.draws, rfl⟩
  · refine ⟨csrRead s i, step_readCsr turn, ?_, ?_⟩
    · rintro rfl
      exact toNat_statusWord_busy busy inv
    · rintro rfl
      exact csrRead_err_busy busy inv

/-- Settles O27: the length error is the result, whatever STREAM holds. -/
theorem decodersCheckLengthFirst : Obligations.DecodersCheckLengthFirst := by
  intro i s command
  refine ⟨fun odd => ?_, fun even long => ?_⟩
  · rw [exec_of_error (commandResult_lengthError command (artifactLengthError_odd odd))]
    rfl
  · rw [exec_of_error (commandResult_lengthError command (artifactLengthError_long even (by rwa [streamCap_eq])))]
    rfl

/-- Settles O48: an error changes no more than the completion's own fields, and a success writes no more than the
command's row of the table. -/
theorem commandsWriteOnlyTheirOutputs : Obligations.CommandsWriteOnlyTheirOutputs := by
  intro i s t h
  obtain ⟨e, -, rfl⟩ | ⟨u, result, rfl⟩ := exec_cases h
  · exact ⟨rfl, rfl, rfl, rfl, rfl, rfl, rfl, rfl, rfl, fun success => absurd success e.code_bounds.1,
      fun _ _ => ⟨rfl, rfl⟩, fun _ _ => ⟨rfl, rfl, rfl⟩, fun _ => rfl, fun _ => ⟨rfl, rfl, rfl, rfl⟩⟩
  · have frame := commandResult_frame result
    exact ⟨(commandResult_latch result :), (commandResult_haz result :), (congrArg State.ie frame :),
      (congrArg State.epoch frame :), (congrArg State.draws frame :), (congrArg State.pending frame :),
      (congrArg State.returned frame :), rfl, rfl, fun _ => (commandResult_errlog result :),
      (commandResult_stream result :), (commandResult_raster result :), (commandResult_freq result :),
      (commandResult_table result :)⟩

/-- Settles O49: the result is an error, an artifact or a histogram made of the declared size and the raster alone. -/
theorem rasterCommandsReadOnlySizeAndRaster : Obligations.RasterCommandsReadOnlySizeAndRaster := by
  intro i s s' command width height raster
  obtain ⟨e, result, result'⟩ | ⟨encoder, out, result, result'⟩ | ⟨hist, f, result, result'⟩ :=
    commandResult_sameRaster command width height raster
  · exact ⟨_, _, exec_of_error result, exec_of_error result', rfl, fun success => absurd success e.code_bounds.1,
      fun success => absurd success e.code_bounds.1⟩
  · refine ⟨_, _, exec_of_ok result, exec_of_ok result', rfl, fun _ _ => ⟨rfl, fun j below => ?_⟩,
      fun _ hist => absurd hist encoder⟩
    rw [streamAt_succeed, streamAt_succeed]
    exact streamAt_writeArtifact_below out s s' below
  · exact ⟨_, _, exec_of_ok result, exec_of_ok result', rfl, fun _ other => absurd hist other, fun _ _ => rfl⟩

/-- Settles O50: the result is an error or a raster made of the artifact alone. -/
theorem decodersReadOnlyTheArtifact : Obligations.DecodersReadOnlyTheArtifact := by
  intro i s s' command length bytes
  obtain ⟨e, result, result'⟩ | ⟨out, full, result, result'⟩ := commandResult_sameArtifact command length bytes
  · exact ⟨_, _, exec_of_error result, exec_of_error result', rfl, fun success => absurd success e.code_bounds.1⟩
  · refine ⟨_, _, exec_of_ok result, exec_of_ok result', rfl, fun _ => ⟨?_, rfl, rfl⟩⟩
    rw [rasterList_succeed, rasterList_succeed, rasterList_writeRaster out s full, rasterList_writeRaster out s' full]

/-- Settles O51: the accesses change what the engine's turn neither reads nor writes. -/
theorem commandSeesTheStateAtIssue : Obligations.CommandSeesTheStateAtIssue := by
  intro s accesses rest busy access
  obtain ⟨haz, draws, returned, ran⟩ := run_accesses_busy (.engine :: rest) (k := 1)
    (s := { s with pending := accesses ++ .engine :: rest }) rfl access busy
  obtain ⟨u, atOnce, after⟩ := engineTurn_withPortSide haz draws returned (s := setPending rest s) busy
  have completes : step (withPortSide haz draws returned (setPending (.engine :: rest) s)) =
      .next (withPortSide haz draws returned u) := (step_engine (.inl rfl)).trans after
  exact ⟨_, u, ran.trans (run_succ 0 completes), (step_engine (.inl rfl)).trans atOnce, rfl⟩

/-- Settles O14, space by space. -/
theorem bufferReadWhileIdleReturnsTheElement : Obligations.BufferReadWhileIdleReturnsTheElement := by
  intro s i rest idle
  refine ⟨fun turn inside => ⟨(s.rasterAt i).setWidth 32, BitVec.toNat_setWidth_of_le (by decide), ?_⟩,
    fun turn inside => ⟨(s.streamAt i).setWidth 32, BitVec.toNat_setWidth_of_le (by decide), ?_⟩,
    fun inside turn => ?_, fun inside turn => ?_⟩
  · rw [step_read_idle turn idle, portElement_raster inside]
  · rw [step_read_idle turn idle, portElement_stream inside]
  · rw [step_read_idle turn idle, portElement_freq _ inside]
  · rw [step_read_idle turn idle, portElement_code _ inside]

/-- Settles O17: 512 rows of 512 samples, read row by row. -/
theorem scanOrderIsRowMajor : Obligations.ScanOrderIsRowMajor :=
  fun s => ⟨(rasterList_eq_samples s).symm, map_range_mul s.rasterAt 512 512⟩

end Sys2Proof.Proofs
end

section
/-! The decoder's three answers, each with the words that get it (R70 to R74), and the text of a code (R77). -/

namespace Sys2Proof

/-! ### The decoder's answers -/

/-- A command's word decodes to it, under either reading of the word. -/
theorem encodeDecodes : ∀ i : Instr, Laws.EncodeDecodes.Statement i
  | .rleEnc => Laws.EncodeDecodes.rleEnc
  | .rleDec => Laws.EncodeDecodes.rleDec
  | .bpEnc => Laws.EncodeDecodes.bpEnc
  | .bpDec => Laws.EncodeDecodes.bpDec
  | .hist => Laws.EncodeDecodes.hist
  | .hbuild => Laws.EncodeDecodes.hbuild

/-- A word that decodes to a command is that command's word. -/
theorem encode_of_decode {c : Word} {i : Instr} (decoded : decode c = .ok i) : encode i = c := by
  rw [decode_eq] at decoded
  split at decoded
  · cases decoded
  · cases named : commandOfNumber c.toNat with
    | none => rw [named] at decoded; cases decoded
    | some j =>
      rw [named] at decoded
      cases decoded
      exact BitVec.eq_of_toNat_eq ((commandOfNumber_eq_some_iff _ _).1 named).symm

theorem decode_eq_ok_iff (c : Word) (i : Instr) : decode c = .ok i ↔ c = encode i := by
  refine ⟨fun decoded => (encode_of_decode decoded).symm, ?_⟩
  rintro rfl
  obtain ⟨-, -, decoded, -⟩ := encodeDecodes i
  exact decoded

theorem decode_eq_zeroFieldNotZero_iff (c : Word) : decode c = .error .zeroFieldNotZero ↔ 256 ≤ c.toNat := by
  rw [decode_eq]
  by_cases large : 256 ≤ c.toNat
  · rw [if_pos large]
    exact iff_of_true rfl large
  · rw [if_neg large]
    cases commandOfNumber c.toNat <;> simp [large]

theorem commandOfNumber_eq_none_iff : ∀ n : Nat, commandOfNumber n = none ↔ n = 0 ∨ 7 ≤ n
  | 0 => by simp [commandOfNumber]
  | 1 | 2 | 3 | 4 | 5 | 6 => by simp [commandOfNumber]
  | n + 7 => iff_of_true rfl (.inr (Nat.le_add_left 7 n))

theorem decode_eq_reservedOpcode_iff (c : Word) :
    decode c = .error .reservedOpcode ↔ c.toNat = 0 ∨ (7 ≤ c.toNat ∧ c.toNat ≤ 255) := by
  have unnamed := commandOfNumber_eq_none_iff c.toNat
  rw [decode_eq]
  by_cases large : 256 ≤ c.toNat
  · rw [if_pos large]
    exact iff_of_false (by simp) (by omega)
  · rw [if_neg large]
    cases named : commandOfNumber c.toNat with
    | none => exact iff_of_true rfl (by have := unnamed.1 named; omega)
    | some i =>
      have number : ¬ (c.toNat = 0 ∨ 7 ≤ c.toNat) := by rw [← unnamed, named]; simp
      exact iff_of_false (by simp) (by omega)

end Sys2Proof

namespace Sys2Proof.Machine

/-! ### An illegal word, from issue to completion -/

/-- The engine's turn after an illegal word's issue takes `IllegalCommandError` (R73). -/
theorem step_issued_illegal {s : State} {c : Word} {rest : List Event} (illegal : c.toNat = 0 ∨ 7 ≤ c.toNat) :
    step (issue c (setPending (.engine :: rest) s)) =
      .next (takeError .illegalCommand (issue c (setPending rest s))) := by
  obtain ⟨why, decoded⟩ := decode_illegal illegal
  rw [step_engine (.inl rfl), engineTurn_illegal (why := why) rfl (by exact decoded)]
  rfl

/-! ### The text of a code -/

theorem toList_codeText (bits : List Bool) :
    (codeText bits).toList = bits.map fun b => if b then '1' else '0' :=
  String.toList_ofList

theorem length_codeText (bits : List Bool) : (codeText bits).length = bits.length := by
  rw [← String.length_toList, toList_codeText, List.length_map]

end Sys2Proof.Machine
end

section
/-! The statements of 30_encoding.md. -/

namespace Sys2Proof.Proofs
open Sys2Proof.Machine

/-- Settles O2, by the round trip of each command's word and the uniqueness of the word that decodes to a command. -/
theorem decodeAndEncodeAgree : Obligations.DecodeAndEncodeAgree := by
  refine ⟨fun i => ?_, fun _ _ decoded => encode_of_decode decoded⟩
  obtain ⟨-, -, decoded, numbered⟩ := encodeDecodes i
  exact ⟨decoded, numbered⟩

/-- Settles O1: `encode` is the word column of the opcode map. -/
theorem eachCommandHasExactlyOneWord : Obligations.EachCommandHasExactlyOneWord :=
  fun c => ⟨decode_eq_ok_iff c .rleEnc, decode_eq_ok_iff c .rleDec, decode_eq_ok_iff c .bpEnc,
    decode_eq_ok_iff c .bpDec, decode_eq_ok_iff c .hist, decode_eq_ok_iff c .hbuild⟩

/-- Settles O3, by the decoder as a function of the word's number. -/
theorem illegalWordsAreRejectedByName : Obligations.IllegalWordsAreRejectedByName :=
  fun c => ⟨decode_eq_zeroFieldNotZero_iff c, decode_eq_reservedOpcode_iff c⟩

/-- Settles O4, each word by the rule for its answer. -/
theorem wordsOfTheTableDecode : Obligations.WordsOfTheTableDecode :=
  ⟨(decode_eq_ok_iff _ .rleEnc).2 rfl, (decode_eq_ok_iff _ .bpDec).2 rfl, (decode_eq_ok_iff _ .hbuild).2 rfl,
    (decode_eq_zeroFieldNotZero_iff _).2 (by decide), (decode_eq_reservedOpcode_iff _).2 (by decide)⟩

/-- Settles O8: the write is the issue, and the engine's turn that follows takes the error of code 8. -/
theorem illegalWordIssuesAndFails : Obligations.IllegalWordIssuesAndFails := by
  intro s c rest illegal idle turn
  have issued : step s = .next (issue c (setPending (.engine :: rest) s)) := step_writeCsr_idle turn idle
  refine ⟨issued, ?_⟩
  rw [run_succ 1 issued, run_succ 0 (step_issued_illegal illegal), run_zero]
  rfl

/-- Settles O18: the text is the bits, character by character. -/
theorem codeTextSpellsTheBits : Obligations.CodeTextSpellsTheBits := by
  refine fun bits => ⟨length_codeText bits, fun i inside => ?_, rfl⟩
  have bit : entryBit (some bits) i = bits[i] := (List.getElem_eq_getD false).symm
  rw [toList_codeText, List.getElem?_map, List.getElem?_eq_getElem inside, bit]
  rfl

end Sys2Proof.Proofs
end

section
/-! The run list of equal samples (R93), what the record loop of RLE_DEC answers to a bad artifact (R92), and the
commands RLE_ENC and RLE_DEC in the terms of the statements of 40_rle.md. -/

namespace Sys2Proof.Machine

/-! ### The run list of equal samples (R93) -/

/-- Samples equal to the symbol of the current run lengthen it up to the cap. -/
theorem runsFrom_replicate_append (v : Byte) (length k : Nat) (rest : List Byte) (fits : length + k ≤ 255) :
    runsFrom v length (List.replicate k v ++ rest) = runsFrom v (length + k) rest := by
  induction k generalizing length with
  | zero => rfl
  | succ k ih =>
    have open_run : ¬ (v ≠ v ∨ length = 255) := by simp; omega
    rw [List.replicate_succ, List.cons_append, runsFrom, if_neg open_run, ih _ (by omega), Nat.add_right_comm,
      Nat.add_assoc]

/-- A run at the cap is closed, whatever follows it. -/
theorem runsFrom_full (v : Byte) (rest : List Byte) : runsFrom v 255 rest = ⟨v, 255⟩ :: rleRuns rest := by
  cases rest with
  | nil => rfl
  | cons sample rest => rw [runsFrom, if_pos (.inr rfl), rleRuns_cons]

/-- 255 equal samples are one full record, and the runs start afresh behind them. -/
theorem rleRuns_replicate_full_append (v : Byte) (rest : List Byte) :
    rleRuns (List.replicate 255 v ++ rest) = ⟨v, 255⟩ :: rleRuns rest := by
  rw [List.replicate_succ, List.cons_append, rleRuns_cons, runsFrom_replicate_append v 1 254 rest (by omega),
    runsFrom_full]

/-- Fewer equal samples than the cap are one record, or none. -/
theorem rleRuns_replicate_of_lt (v : Byte) {r : Nat} (small : r < 255) :
    rleRuns (List.replicate r v) = if r = 0 then [] else [⟨v, r⟩] := by
  cases r with
  | zero => rfl
  | succ r =>
    have merged := runsFrom_replicate_append v 1 r [] (by omega)
    rw [List.append_nil] at merged
    rw [List.replicate_succ, rleRuns_cons, merged, if_neg (Nat.succ_ne_zero r), Nat.add_comm]
    rfl

/-- `q` times 255 equal samples and a rest below the cap: `q` full records and one for the rest, if any is left. -/
theorem rleRuns_replicate_mul_add (v : Byte) (q : Nat) {r : Nat} (small : r < 255) :
    rleRuns (List.replicate (255 * q + r) v) =
      List.replicate q ⟨v, 255⟩ ++ if r = 0 then [] else [⟨v, r⟩] := by
  induction q with
  | zero => rw [Nat.mul_zero, Nat.zero_add, rleRuns_replicate_of_lt v small]; rfl
  | succ q ih =>
    have split : 255 * (q + 1) + r = 255 + (255 * q + r) := by omega
    rw [split, List.replicate_add, rleRuns_replicate_full_append, ih, List.replicate_succ, List.cons_append]

theorem serialise_replicate (n : Nat) (r : Run) :
    serialise (List.replicate n r) = (List.replicate n (runBytes r)).flatten := by
  rw [serialise, List.flatMap_def, List.map_replicate]

/-- The boundary law of R93. -/
theorem rle_replicate (v : Byte) (m : Nat) :
    rle (List.replicate m v) = (List.replicate (m / 255) [v, 255#8]).flatten ++
      if m % 255 = 0 then [] else [v, BitVec.ofNat 8 (m % 255)] := by
  have runs := rleRuns_replicate_mul_add v (m / 255) (Nat.mod_lt m (by decide : 0 < 255))
  rw [Nat.div_add_mod] at runs
  rw [rle, runs, serialise_append, serialise_replicate]
  split <;> rfl

/-! ### RLE_ENC (R91) -/

/-- The run list of the raster has at most one run per sample. -/
theorem length_rleRuns_rasterList_le (s : State) : (rleRuns (rasterList s)).length ≤ 262144 := by
  have few := (isRunListOf_rleRuns (rasterList s)).length_bounds.1
  rwa [length_rasterList, npix_eq] at few

/-! ### The errors of RLE_DEC's record loop (R92) -/

/-- An artifact within capacity whose records the loop rejects: RLE_DEC takes the loop's error. -/
theorem exec_rleDec_error {s : State} {runs : List Run} {e : CmdError} (holds : StreamHolds s runs)
    (fits : s.streamLen.toNat ≤ Config.geometry.streamCap)
    (rejected : rleDecLoop Config.geometry.npix runs 0 [] = .error e) : exec .rleDec s = .next (takeError e s) := by
  refine exec_of_error ?_
  rw [commandResult, rleDec, artifactLengthError_none holds (holds.1 ▸ fits), streamRuns_of_streamHolds holds,
    rejected]

section
variable {npix : Nat} {good : List Run} (legal : ∀ r ∈ good, 1 ≤ r.length)
include legal

theorem rleDecLoop_zeroLength (fits : (expandRuns good).length ≤ npix) {bad : Run} (rest : List Run)
    (zero : bad.length = 0) : rleDecLoop npix (good ++ bad :: rest) 0 [] = .error .format := by
  rw [rleDecLoop_append npix good _ 0 [] legal (by omega), rleDecLoop, if_pos zero]

theorem rleDecLoop_overrun (fits : (expandRuns good).length ≤ npix) {bad : Run} (rest : List Run)
    (positive : 1 ≤ bad.length) (past : npix < (expandRuns good).length + bad.length) :
    rleDecLoop npix (good ++ bad :: rest) 0 [] = .error .overrun := by
  rw [rleDecLoop_append npix good _ 0 [] legal (by omega), rleDecLoop, if_neg (by omega), if_pos (by omega)]

theorem rleDecLoop_truncated (short : (expandRuns good).length < npix) :
    rleDecLoop npix good 0 [] = .error .truncatedData := by
  have taken := rleDecLoop_append npix good [] 0 [] legal (by omega)
  rw [List.append_nil] at taken
  rw [taken, rleDecLoop, if_pos (by omega)]

end

end Sys2Proof.Machine
end

section
/-! The statements of 40_rle.md. -/

namespace Sys2Proof.Proofs
open Sys2Proof.Machine

/-- Settles O31: the runs are those of `rle`, at most one per sample, so STREAM_LEN counts their bytes exactly. -/
theorem rleEncWritesTheRunListOfTheRaster : Obligations.RleEncWritesTheRunListOfTheRaster := by
  intro s width height
  have runList := isRunListOf_rleRuns (rasterList s)
  have few := length_rleRuns_rasterList_le s
  obtain ⟨holds, beyond⟩ := succeed_writeArtifact_stream _ s runList.1 (by omega)
  exact ⟨_, rleRuns (rasterList s), exec_rleEnc_ok s ((declaredSizeOk_iff s).2 ⟨width, height⟩), runList, holds,
    beyond, succeed_writeArtifact_frame _ s⟩

/-- Settles O35: records of legal length that fill the raster pass every check of the loop. -/
theorem rleDecWritesTheSamplesOfTheRecords : Obligations.RleDecWritesTheSamplesOfTheRecords := by
  intro s runs holds legal full
  have positive : ∀ r ∈ runs, 1 ≤ r.length := fun r mem => ((Run.wellFormed_iff r).1 (legal r mem)).1
  refine ⟨_, exec_rleDec_ok holds positive full, ?_, rfl, rfl, fun i beyond => ?_, succeed_writeRaster_frame _ _ s⟩
  · rw [rasterList_succeed, rasterList_writeRaster _ s full]
  · rw [rasterAt_succeed, rasterAt_writeRaster, dif_neg (by omega)]

/-- Settles O36: the decoder reads back the run list the encoder wrote, and that run list loses nothing. -/
theorem rleRoundTrip : Obligations.RleRoundTrip := by
  intro s width height
  obtain ⟨t, runs, encoded, ⟨legal, -, restores⟩, holds, -, frame⟩ :=
    rleEncWritesTheRunListOfTheRaster s width height
  refine ⟨t, encoded, (congrArg State.err frame :), fun t' len bytes => ?_⟩
  have full : (expandRuns runs).length = Config.geometry.npix := by rw [restores, length_rasterList]
  obtain ⟨u, decoded, raster, -, -, -, frame'⟩ :=
    rleDecWritesTheSamplesOfTheRecords t' runs (holds.congr len bytes) legal full
  exact ⟨u, decoded, (congrArg State.err frame' :), raster.trans restores⟩

/-- Settles O28: the good records are taken over, and the record after them or the end of the artifact decides. -/
theorem rleDecRecordErrors : Obligations.RleDecRecordErrors := by
  intro s good rest bad legal fits inCapacity
  refine ⟨fun holds zero => ?_, fun holds positive past => ?_, fun holds short => ?_⟩
  · rw [exec_rleDec_error holds inCapacity (rleDecLoop_zeroLength legal fits rest zero)]
    rfl
  · rw [exec_rleDec_error holds inCapacity (rleDecLoop_overrun legal fits rest positive past)]
    rfl
  · rw [exec_rleDec_error holds inCapacity (rleDecLoop_truncated legal short)]
    rfl

/-- Settles O33: 255 equal samples at a time make one full record. -/
theorem rleBoundaryLaw : Obligations.RleBoundaryLaw :=
  ⟨fun v m _ => rle_replicate v m, fun v => rle_replicate v 256⟩

end Sys2Proof.Proofs
end

section
/-! The plane symbols (R100), what BP_ENC writes and how many records that is (R101, R104), and what the record loop of
BP_DEC answers to a bad artifact (R102). -/

namespace Sys2Proof.Machine

/-! ### The planes of a raster (R100, R101) -/

/-- The plane symbol is the raw mask: the sample's bit `p`, left in its place. -/
theorem planeSymbol_eq (p : Nat) (b : Byte) :
    planeSymbol p b = if b.getLsbD p then BitVec.twoPow 8 p else 0#8 :=
  BitVec.and_twoPow b p

/-- The records of the eight planes of RASTER, as `length_planeRuns` counts them at 512 by 512. -/
theorem length_planeRuns_bounds (s : State) :
    8232 ≤ ((List.range 8).flatMap (planeRuns (rasterList s))).length ∧
      ((List.range 8).flatMap (planeRuns (rasterList s))).length ≤ 2097152 := by
  have bounds := length_planeRuns (rasterList s) 8
  rw [length_rasterList, npix_eq] at bounds
  omega

/-- The whole effect of BP_ENC on a declared raster: the run lists of the planes in STREAM, and nothing else. -/
theorem exec_bpEnc_writes {s : State} (width : s.imgW = 512#16) (height : s.imgH = 512#16) :
    ∃ t, exec .bpEnc s = .next t ∧
      StreamHolds t ((List.range 8).flatMap (planeRuns (rasterList s))) ∧
      (∀ j, t.streamLen.toNat ≤ j → t.streamAt j = s.streamAt j) ∧
      { t with stream := s.stream, streamLen := s.streamLen } =
        { s with err := 0#4, busy := false, done := true } := by
  have few := (length_planeRuns_bounds s).2
  obtain ⟨holds, beyond⟩ := succeed_writeArtifact_stream _ s (wellFormed_planeRuns (rasterList s) 8) (by omega)
  exact ⟨_, exec_bpEnc_ok s ((declaredSizeOk_iff s).2 ⟨width, height⟩), holds, beyond,
    succeed_writeArtifact_frame _ s⟩

/-! ### The planes laid over each other (R103) -/

theorem cellSum_planeRuns (s : State) (i : Nat) (inside : i < Config.geometry.npix) :
    cellSum Config.geometry (expandRuns ((List.range 8).flatMap (planeRuns (rasterList s)))) i =
      (s.rasterAt i).toNat := by
  have inRaster : i < (rasterList s).length := by rwa [length_rasterList]
  rw [expandRuns_planeRuns, cellSum_planes _ _ (length_rasterList s) i inside, List.getD_eq_getElem _ _ inRaster,
    rasterList_getElem]

theorem cellSumsFit_planeRuns (s : State) :
    CellSumsFit Config.geometry (expandRuns ((List.range 8).flatMap (planeRuns (rasterList s)))) := by
  intro i inside
  rw [cellSum_planeRuns s i inside]
  exact Nat.le_of_lt_succ (s.rasterAt i).isLt

theorem length_expandRuns_planeRuns (raster : List Byte) :
    (expandRuns ((List.range 8).flatMap (planeRuns raster))).length = 8 * raster.length := by
  rw [expandRuns_planeRuns, List.length_flatMap]
  simp only [plane, List.length_map, List.map_const', List.length_range, List.sum_replicate, smul_eq_mul]

/-! ### The errors of BP_DEC's record loop (R102) -/

/-- An artifact within capacity whose records the loop rejects: BP_DEC takes the loop's error. -/
theorem exec_bpDec_error {s : State} {runs : List Run} {e : CmdError} (holds : StreamHolds s runs)
    (fits : s.streamLen.toNat ≤ Config.geometry.streamCap)
    (rejected : bpDecLoop Config.geometry runs 0 (Array.replicate Config.geometry.npix 0) = .error e) :
    exec .bpDec s = .next (takeError e s) := by
  refine exec_of_error ?_
  rw [commandResult, bpDec, artifactLengthError_none holds (holds.1 ▸ fits), streamRuns_of_streamHolds holds,
    rejected]

/-- When one more symbol breaks the fit, the cell it breaks is the one the cursor is at. -/
theorem cursorSum_of_not_fits {g : Geometry} {seq : List Byte} {b : Byte} (room : seq.length < g.cells)
    (fits : CellSumsFit g seq) (tooBig : ¬ CellSumsFit g (seq ++ [b])) :
    255 < cellSum g seq (seq.length % g.npix) + b.toNat := by
  by_contra small
  refine tooBig fun i inside => ?_
  rw [cellSum_append_one g seq b i room inside]
  split
  case isTrue here => rw [here]; omega
  case isFalse => exact fits i inside

/-- The first repetition with no cell left overruns. -/
theorem bpRepeat_overrun {g : Geometry} {seq : List Byte} {acc : Array Nat} (holds : AccHolds g seq acc) (b : Byte)
    {j n : Nat} (more : j < n) (full : seq.length + j = g.cells) (fits : CellSumsFit g (seq ++ List.replicate j b)) :
    bpRepeat g b.toNat n seq.length acc = .error .overrun := by
  obtain ⟨k, rfl⟩ := Nat.exists_eq_add_of_lt more
  obtain ⟨acc', -, taken⟩ := bpRepeat_add holds b j (k + 1) (Nat.le_of_eq full) fits
  rw [Nat.add_assoc, taken, bpRepeat, if_pos full]

/-- The first repetition whose cell's sum leaves the u8 range is a format error. -/
theorem bpRepeat_sumTooBig {g : Geometry} {seq : List Byte} {acc : Array Nat} (holds : AccHolds g seq acc) (b : Byte)
    {j n : Nat} (more : j < n) (room : seq.length + j < g.cells) (fits : CellSumsFit g (seq ++ List.replicate j b))
    (tooBig : ¬ CellSumsFit g (seq ++ List.replicate (j + 1) b)) :
    bpRepeat g b.toNat n seq.length acc = .error .format := by
  obtain ⟨k, rfl⟩ := Nat.exists_eq_add_of_lt more
  obtain ⟨acc', ⟨-, sums⟩, taken⟩ := bpRepeat_add holds b j (k + 1) (Nat.le_of_lt room) fits
  have cursor : (seq ++ List.replicate j b).length = seq.length + j := by simp
  rw [List.replicate_succ', ← List.append_assoc] at tooBig
  have past := cursorSum_of_not_fits (by rwa [cursor]) fits tooBig
  rw [cursor, ← sums _ (mod_npix_lt room)] at past
  rw [Nat.add_assoc, taken, bpRepeat, if_neg (Nat.ne_of_lt room)]
  exact if_pos past

/-- A record that fails in one of its repetitions fails the loop. -/
theorem bpDecLoop_cons_error {g : Geometry} {r : Run} {c : Nat} {acc : Array Nat} {e : CmdError} (rest : List Run)
    (positive : r.length ≠ 0) (fails : bpRepeat g r.symbol.toNat r.length c acc = .error e) :
    bpDecLoop g (r :: rest) c acc = .error e := by
  rw [bpDecLoop, if_neg positive, fails]

section
variable {g : Geometry} {good : List Run} (legal : ∀ r ∈ good, 1 ≤ r.length)
  (within : (expandRuns good).length ≤ g.cells) (sums : CellSumsFit g (expandRuns good))
include legal within sums

/-- The records before the failing one are taken over, and the accumulators then hold their sums. -/
theorem bpDecLoop_good (rest : List Run) :
    ∃ acc, AccHolds g (expandRuns good) acc ∧
      bpDecLoop g (good ++ rest) 0 (Array.replicate g.npix 0) = bpDecLoop g rest (expandRuns good).length acc :=
  bpDecLoop_append (accHolds_start g) good rest legal within sums

theorem bpDecLoop_zeroLength {bad : Run} (rest : List Run) (zero : bad.length = 0) :
    bpDecLoop g (good ++ bad :: rest) 0 (Array.replicate g.npix 0) = .error .format := by
  obtain ⟨acc, -, taken⟩ := bpDecLoop_good legal within sums (bad :: rest)
  rw [taken, bpDecLoop, if_pos zero]

theorem bpDecLoop_sumTooBig {bad : Run} (rest : List Run) {j : Nat} (more : j < bad.length)
    (room : (expandRuns good).length + j < g.cells)
    (fits : CellSumsFit g (expandRuns good ++ List.replicate j bad.symbol))
    (tooBig : ¬ CellSumsFit g (expandRuns good ++ List.replicate (j + 1) bad.symbol)) :
    bpDecLoop g (good ++ bad :: rest) 0 (Array.replicate g.npix 0) = .error .format := by
  obtain ⟨acc, holds, taken⟩ := bpDecLoop_good legal within sums (bad :: rest)
  rw [taken, bpDecLoop_cons_error rest (Nat.ne_zero_of_lt more) (bpRepeat_sumTooBig holds _ more room fits tooBig)]

theorem bpDecLoop_overrun {bad : Run} (rest : List Run) {j : Nat} (more : j < bad.length)
    (full : (expandRuns good).length + j = g.cells)
    (fits : CellSumsFit g (expandRuns good ++ List.replicate j bad.symbol)) :
    bpDecLoop g (good ++ bad :: rest) 0 (Array.replicate g.npix 0) = .error .overrun := by
  obtain ⟨acc, holds, taken⟩ := bpDecLoop_good legal within sums (bad :: rest)
  rw [taken, bpDecLoop_cons_error rest (Nat.ne_zero_of_lt more) (bpRepeat_overrun holds _ more full fits)]

omit within in
theorem bpDecLoop_truncated (short : (expandRuns good).length < g.cells) :
    bpDecLoop g good 0 (Array.replicate g.npix 0) = .error .truncatedData := by
  obtain ⟨acc, -, taken⟩ := bpDecLoop_good legal (Nat.le_of_lt short) sums []
  rw [List.append_nil] at taken
  rw [taken, bpDecLoop, if_pos short]

end

end Sys2Proof.Machine
end

section
/-! The statements of 41_bitplane.md. -/

namespace Sys2Proof.Proofs
open Sys2Proof.Machine

/-- Settles O37: a plane symbol is the sample's bit in its place, and bits in place add up to the byte. -/
theorem sampleIsTheSumOfItsPlanes : Obligations.SampleIsTheSumOfItsPlanes := by
  refine fun b => ⟨fun p inByte => ?_, sum_planeSymbol b⟩
  rw [planeSymbol_eq]
  split
  · exact .inr (BitVec.toNat_twoPow_of_lt inByte)
  · exact .inl rfl

/-- Settles O38: the runs of a plane are those of `rle` on its sequence. -/
theorem bpEncWritesTheRunListsOfThePlanes : Obligations.BpEncWritesTheRunListsOfThePlanes := by
  intro s width height
  obtain ⟨t, encoded, holds, beyond, frame⟩ := exec_bpEnc_writes width height
  exact ⟨t, planeRuns (rasterList s), encoded, fun p _ => isRunListOf_planeRuns (rasterList s) p, holds, beyond,
    frame⟩

/-- Settles O34: two bytes per record, and between NPIX/255 and NPIX records per run list. -/
theorem artifactSizeBounds : Obligations.ArtifactSizeBounds := by
  intro s width height
  constructor
  · obtain ⟨t, runs, encoded, runList, ⟨size, -⟩, -, frame⟩ := rleEncWritesTheRunListOfTheRaster s width height
    have bounds := runList.length_bounds
    rw [length_rasterList, npix_eq] at bounds
    exact ⟨t, encoded, (congrArg State.err frame :), by omega, by omega, by omega⟩
  · obtain ⟨t, encoded, ⟨size, -⟩, -, frame⟩ := exec_bpEnc_writes width height
    have bounds := length_planeRuns_bounds s
    exact ⟨t, encoded, (congrArg State.err frame :), by omega, by omega, by omega⟩

/-- Settles O39: records of legal length that cover the planes and fit pass every check of the loop, and what it has
accumulated is the cell sums. -/
theorem bpDecAddsTheContributions : Obligations.BpDecAddsTheContributions := by
  intro s runs holds legal full fits
  have positive : ∀ r ∈ runs, 1 ≤ r.length := fun r mem => ((Run.wellFormed_iff r).1 (legal r mem)).1
  obtain ⟨out, length, sums, decoded⟩ := exec_bpDec_ok holds positive (by rw [full, npix_eq, cells_eq]) fits
  refine ⟨_, decoded, fun i inside => ?_, rfl, rfl, fun i beyond => ?_, succeed_writeRaster_frame _ _ s⟩
  · have written : i < out.length := by rwa [length]
    rw [rasterAt_succeed, rasterAt_writeRaster, dif_pos written, sums i written]
  · rw [rasterAt_succeed, rasterAt_writeRaster, dif_neg (by omega)]

/-- Settles O40: the decoder adds up the plane sequences the encoder wrote, and a sample is the sum of its planes. -/
theorem bitPlaneRoundTrip : Obligations.BitPlaneRoundTrip := by
  intro s width height
  obtain ⟨t, encoded, holds, -, frame⟩ := exec_bpEnc_writes width height
  refine ⟨t, encoded, (congrArg State.err frame :), fun t' len bytes => ?_⟩
  obtain ⟨u, decoded, sums, -, -, -, frame'⟩ :=
    bpDecAddsTheContributions t' _ (holds.congr len bytes) (wellFormed_planeRuns (rasterList s) 8)
      (by rw [length_expandRuns_planeRuns, length_rasterList]) (cellSumsFit_planeRuns s)
  refine ⟨u, decoded, (congrArg State.err frame' :), List.map_congr_left fun i mem => ?_⟩
  have inside := List.mem_range.1 mem
  exact BitVec.eq_of_toNat_eq ((sums i inside).trans (cellSum_planeRuns s i inside))

/-- Settles O29: the good records are taken over, and the record after them, repetition by repetition, or the end of the
artifact decides. -/
theorem bpDecRecordErrors : Obligations.BpDecRecordErrors := by
  intro s good rest bad j legal within sums inCapacity
  refine ⟨fun holds zero => ?_, fun holds more room fits tooBig => ?_, fun holds more full fits => ?_,
    fun holds short => ?_⟩
  · rw [exec_bpDec_error holds inCapacity (bpDecLoop_zeroLength legal within sums rest zero)]
    rfl
  · rw [exec_bpDec_error holds inCapacity (bpDecLoop_sumTooBig legal within sums rest more room fits tooBig)]
    rfl
  · rw [exec_bpDec_error holds inCapacity (bpDecLoop_overrun legal within sums rest more full fits)]
    rfl
  · rw [exec_bpDec_error holds inCapacity (bpDecLoop_truncated legal sums short)]
    rfl

end Sys2Proof.Proofs
end

section
/-! HIST and HBUILD in the terms of the statements of 42_huffman.md: the histogram's entries and their sum (R111), the
two errors (R112), what a table's used values say of its total and its codes (R113, R116, R118), and merging when one or
two nodes are live (R114, R115, R120). -/

namespace Sys2Proof.Machine

/-! ### The histogram (R111) -/

theorem freqAt_ofFn (s : State) (f : Fin 256 → Word) {v : Nat} (inside : v < 256) :
    { s with freq := Vector.ofFn f }.freqAt v = f ⟨v, inside⟩ := by
  rw [State.freqAt, dif_pos inside]
  exact Vector.getElem_ofFn inside

/-- Each byte is the byte of exactly one value below 256. -/
theorem sum_byteIndicator (b : Byte) :
    ((List.range 256).map fun v => if b == BitVec.ofNat 8 v then 1 else 0).sum = 1 := by
  have only : ∀ v ∈ List.range 256, (if b == BitVec.ofNat 8 v then 1 else 0) = if b.toNat = v then 1 else 0 := by
    intro v mem
    have named : b = BitVec.ofNat 8 v ↔ b.toNat = v := by
      rw [← BitVec.toNat_inj, BitVec.toNat_ofNat, Nat.mod_eq_of_lt (List.mem_range.1 mem)]
    simp only [beq_iff_eq, named]
  rw [List.map_congr_left only, ← List.sum_toFinset _ List.nodup_range, List.toFinset_range, Finset.sum_ite_eq,
    if_pos (Finset.mem_range.2 b.isLt)]

/-- The counts of the 256 values sum to the number of samples. -/
theorem sum_count_rasterList (s : State) :
    ((List.range 256).map fun v => (rasterList s).count (BitVec.ofNat 8 v)).sum = Config.geometry.npix := by
  rw [sum_counts _ _ sum_byteIndicator, length_rasterList]

/-- A count of samples fits a frequency. -/
theorem toNat_ofNat_count_rasterList (s : State) (b : Byte) :
    (BitVec.ofNat 32 ((rasterList s).count b)).toNat = (rasterList s).count b := by
  have few : (rasterList s).count b ≤ (rasterList s).length := List.count_le_length
  rw [length_rasterList, npix_eq] at few
  rw [BitVec.toNat_ofNat, Nat.mod_eq_of_lt (by omega)]

/-- HIST on a declared raster: FREQ holds the count of every value, and nothing else changes. -/
theorem exec_hist_counts {s : State} (declared : declaredSizeOk Config.geometry s = true) :
    ∃ t, exec .hist s = .next t ∧
      (∀ v, v < 256 → (t.freqAt v).toNat = (rasterList s).count (BitVec.ofNat 8 v)) ∧
      { t with freq := s.freq } = { s with err := 0#4, busy := false, done := true } := by
  refine ⟨_, exec_hist_ok s declared, fun v inside => ?_, rfl⟩
  rw [freqAt_succeed, freqAt_ofFn s _ inside, toNat_ofNat_count_rasterList]

/-! ### The errors of HBUILD (R112) -/

theorem distinctValues_eq_zero {s : State} (unused : ∀ v, v < 256 → s.freqAt v = 0#32) : distinctValues s = 0 := by
  rw [distinctValues, List.countP_eq_zero]
  intro v mem
  simpa using unused v (List.mem_range.1 mem)

theorem one_le_distinctValues_of_total {s : State} (positive : 0 < totalFrequency s) : 1 ≤ distinctValues s := by
  refine one_le_distinctValues ?_
  by_contra! unused
  refine Nat.ne_of_gt positive (List.sum_eq_zero fun f mem => ?_)
  obtain ⟨v, inRange, rfl⟩ := List.mem_map.1 mem
  rw [unused v (List.mem_range.1 inRange)]
  rfl

theorem hbuild_empty {s : State} (unused : distinctValues s = 0) : hbuild s = .error .emptyHistogram := by
  have none_left : makeLeaves s.freq = [] := List.eq_nil_of_length_eq_zero (by rw [length_makeLeaves, unused])
  rw [hbuild, none_left]

theorem hbuild_overflow {s : State} (large : 2 ^ 32 ≤ totalFrequency s) : hbuild s = .error .frequencyOverflow := by
  have some_used := one_le_distinctValues_of_total (Nat.lt_of_lt_of_le (by decide) large)
  rw [← length_makeLeaves] at some_used
  rw [hbuild]
  cases leaves : makeLeaves s.freq with
  | nil => simp [leaves] at some_used
  | cons x rest => simp only [freqTotal_eq, if_pos large]

/-! ### HBUILD reads FREQ alone (R122) -/

theorem freq_eq_of_freqAt {s s' : State} (same : ∀ v, v < 256 → s.freqAt v = s'.freqAt v) : s.freq = s'.freq := by
  refine Vector.ext fun v inside => ?_
  simpa [State.freqAt, inside] using same v inside

/-- From equal frequencies HBUILD fails alike, or writes the same table. -/
theorem hbuild_sameFreq {s s' : State} (same : s.freq = s'.freq) :
    (∃ e, hbuild s = .error e ∧ hbuild s' = .error e) ∨
    ∃ table, hbuild s = .ok (writeTable table s) ∧ hbuild s' = .ok (writeTable table s') := by
  rw [hbuild, hbuild, ← same]
  cases makeLeaves s.freq with
  | nil => exact .inl ⟨_, rfl, rfl⟩
  | cons x rest =>
    by_cases large : 2 ^ 32 ≤ freqTotal s.freq
    · simp only [if_pos large]
      exact .inl ⟨_, rfl, rfl⟩
    · simp only [if_neg large]
      exact .inr ⟨_, rfl, rfl⟩

/-! ### What HBUILD leaves (R65), and what it writes at the used values (R118, R119) -/

/-- What HBUILD leaves unchanged (R65): all but CODE, NCODES, EST and the completion's own fields. -/
theorem succeed_writeTable_frame (table : List (Byte × List Bool)) (s : State) :
    { succeed (writeTable table s) with code := s.code, ncodes := s.ncodes, estLo := s.estLo, estHi := s.estHi } =
      { s with err := 0#4, busy := false, done := true } := rfl

@[simp] theorem est_succeed (s : State) : (succeed s).est = s.est := rfl

/-- A strictly increasing list of the values of non-zero frequency is the list of the used values. -/
theorem usedValues_eq {s : State} {values : List Nat} (increasing : values.Pairwise (· < ·))
    (used : ∀ v, v ∈ values ↔ v < 256 ∧ s.freqAt v ≠ 0#32) : usedValues s = values :=
  (usedValues_pairwise s).eq_of_mem_iff increasing fun v => (mem_usedValues s v).trans (used v).symm

/-- A sum over the table is a sum over the used values, where frequency 0 adds nothing. -/
theorem sum_usedValues {s : State} (f : Nat → Nat) (zero : ∀ v, s.freqAt v = 0#32 → f v = 0) :
    ((usedValues s).map f).sum = ((List.range 256).map f).sum :=
  sum_map_filter _ f fun v _ unused => zero v (by simpa using unused)

theorem totalFrequency_eq_sum_used (s : State) :
    totalFrequency s = ((usedValues s).map fun v => (s.freqAt v).toNat).sum :=
  (sum_usedValues _ fun _ zero => congrArg BitVec.toNat zero).symm

section
variable {s : State} {root : Tree} (built : HuffmanMerge (distinctValues s) (makeLeaves s.freq) root)
include built

theorem codeAt_root_isSome_iff_used (v : Nat) :
    ((writeTable (assign root []) s).codeAt v).isSome = true ↔ v ∈ usedValues s := by
  rw [mem_usedValues]
  by_cases inside : v < 256
  · rw [codeAt_root_isSome built v inside, and_iff_right inside]
  · rw [codeAt_outside _ _ inside]
    exact iff_of_false (by simp) fun used => inside used.1

/-- EST is the sum of what each value adds (R119). -/
theorem est_root (small : totalFrequency s < 2 ^ 32) :
    (writeTable (assign root []) s).est =
      ((List.range 256).map (estimateTerm (writeTable (assign root []) s) s)).sum :=
  (est_writeTable built small).trans (sizeEstimate_root built)

/-- EST is the sum of what each used value adds (R119). -/
theorem est_root_used (small : totalFrequency s < 2 ^ 32) :
    (writeTable (assign root []) s).est =
      ((usedValues s).map (estimateTerm (writeTable (assign root []) s) s)).sum := by
  refine (est_root built small).trans (sum_usedValues _ fun v zero => ?_).symm
  rw [estimateTerm, zero]
  exact Nat.mul_zero _

/-- The table of a single used value: the empty code for it, and no other code (R116). -/
theorem codeAt_root_single {v : Nat} (single : usedValues s = [v]) :
    (writeTable (assign root []) s).codeAt v = some [] ∧
      ∀ w, w ≠ v → (writeTable (assign root []) s).codeAt w = none := by
  have present := codeAt_root_isSome_iff_used built
  simp only [single, List.mem_singleton] at present
  constructor
  · obtain ⟨a, code⟩ := Option.isSome_iff_exists.1 ((present v).2 rfl)
    have alone : distinctValues s = 1 := by rw [← length_usedValues, single]; rfl
    rw [code, (codeAt_root_empty_iff built code).2 alone]
  · intro w other
    rwa [← Option.not_isSome_iff_eq_none, present]

end

/-! ### Merging one or two live nodes (R114, R115) -/

/-- A single live node is the root. -/
theorem HuffmanMerge.root_of_single {next : Nat} {x : LiveNode} {root : Tree} (h : HuffmanMerge next [x] root) :
    root = x.tree := by
  cases h with
  | root => rfl
  | merge _ _ others a b _ removed => simpa using removed.length_eq

/-- Of two live nodes, the one of the smaller key becomes the left child of the root. -/
theorem HuffmanMerge.root_of_pair {next : Nat} {x y : LiveNode} {root : Tree} (h : HuffmanMerge next [x, y] root) :
    (KeyLess x y ∧ root = treeJoin x.tree y.tree) ∨ (KeyLess y x ∧ root = treeJoin y.tree x.tree) := by
  cases h with
  | merge _ _ others a b _ removed aLeast bLeast rest =>
    obtain rfl : others = [] := List.eq_nil_of_length_eq_zero (by simpa using removed.length_eq.symm)
    have first : KeyLess a b := aLeast b List.mem_cons_self
    have joined : root = treeJoin a.tree b.tree := rest.root_of_single
    obtain order | order := List.pair_perm.1 removed <;> cases order
    · exact .inl ⟨first, joined⟩
    · exact .inr ⟨first, joined⟩

/-- The tree of two leaves gives 0 to its left value and 1 to its right value (R117). -/
theorem pathTo_treeJoin_leaves (v w : Byte) (f g : Nat) :
    PathTo (treeJoin (.leaf v f) (.leaf w g)) [false] v ∧ PathTo (treeJoin (.leaf v f) (.leaf w g)) [true] w :=
  ⟨.left _ _ _ _ _ (.leaf v f), .right _ _ _ _ _ (.leaf w g)⟩

/-- The leaves of two used values (R113). -/
theorem makeLeaves_of_pair {s : State} {v w : Nat} (pair : usedValues s = [v, w]) :
    makeLeaves s.freq = [⟨0, .leaf (BitVec.ofNat 8 v) (s.freqAt v).toNat⟩,
      ⟨1, .leaf (BitVec.ofNat 8 w) (s.freqAt w).toNat⟩] := by
  rw [makeLeaves_eq, pair]
  rfl

section
variable {s : State} {root : Tree} (built : HuffmanMerge (distinctValues s) (makeLeaves s.freq) root)
  {v w : Nat} (pair : usedValues s = [v, w])
include built pair

/-- Two used values: the less frequent is the left leaf, at equal frequency the smaller one (R120). -/
theorem root_of_two_values :
    root = if (s.freqAt v).toNat ≤ (s.freqAt w).toNat then
        treeJoin (.leaf (BitVec.ofNat 8 v) (s.freqAt v).toNat) (.leaf (BitVec.ofNat 8 w) (s.freqAt w).toNat)
      else treeJoin (.leaf (BitVec.ofNat 8 w) (s.freqAt w).toNat) (.leaf (BitVec.ofNat 8 v) (s.freqAt v).toNat) := by
  rw [makeLeaves_of_pair pair] at built
  obtain ⟨first, joined⟩ | ⟨first, joined⟩ := built.root_of_pair
  · have le : (s.freqAt v).toNat ≤ (s.freqAt w).toNat := by
      simp only [KeyLess, treeFrequency] at first
      omega
    rw [if_pos le, joined]
  · have lt : ¬ (s.freqAt v).toNat ≤ (s.freqAt w).toNat := by
      simp only [KeyLess, treeFrequency] at first
      omega
    rw [if_neg lt, joined]

/-- The codes of two used values (R120). -/
theorem codeAt_root_two_values :
    ((s.freqAt v).toNat ≤ (s.freqAt w).toNat →
      (writeTable (assign root []) s).codeAt v = some [false] ∧
        (writeTable (assign root []) s).codeAt w = some [true]) ∧
    ((s.freqAt w).toNat < (s.freqAt v).toNat →
      (writeTable (assign root []) s).codeAt w = some [false] ∧
        (writeTable (assign root []) s).codeAt v = some [true]) := by
  have inside : ∀ u ∈ [v, w], u < 256 := fun u mem => ((mem_usedValues s u).1 (pair ▸ mem)).1
  simp only [List.forall_mem_cons] at inside
  obtain ⟨insideV, insideW, -⟩ := inside
  simp only [codeAt_root built v insideV, codeAt_root built w insideW]
  rw [root_of_two_values built pair]
  constructor
  · intro le
    rw [if_pos le]
    exact pathTo_treeJoin_leaves _ _ _ _
  · intro lt
    rw [if_neg (Nat.not_le.2 lt)]
    exact pathTo_treeJoin_leaves _ _ _ _

/-- With one bit each the estimate of two used values is the total (R119). -/
theorem est_root_two_values (small : totalFrequency s < 2 ^ 32) :
    (writeTable (assign root []) s).est = (s.freqAt v).toNat + (s.freqAt w).toNat := by
  have one_bit : ∀ u b, (writeTable (assign root []) s).codeAt u = some [b] →
      estimateTerm (writeTable (assign root []) s) s u = (s.freqAt u).toNat := by
    intro u b code
    simp [estimateTerm, code, entryLen]
  obtain ⟨vFirst, wFirst⟩ := codeAt_root_two_values built pair
  rw [est_root_used built small, pair, List.map_cons, List.map_cons, List.map_nil, List.sum_pair]
  obtain lt | le := Nat.lt_or_ge (s.freqAt w).toNat (s.freqAt v).toNat
  · obtain ⟨codeW, codeV⟩ := wFirst lt
    rw [one_bit v _ codeV, one_bit w _ codeW]
  · obtain ⟨codeV, codeW⟩ := vFirst le
    rw [one_bit v _ codeV, one_bit w _ codeW]

end

end Sys2Proof.Machine
end

section
/-! The statements of 42_huffman.md. -/

namespace Sys2Proof.Proofs
open Sys2Proof.Machine

/-- Settles O30: an empty table has no leaf, and a total of 2^32 or more leaves no table empty. -/
theorem hbuildErrors : Obligations.HbuildErrors := by
  refine fun s => ⟨fun unused => ?_, fun large => ?_⟩
  · rw [exec_of_error (i := .hbuild) (hbuild_empty (distinctValues_eq_zero unused))]
    rfl
  · rw [exec_of_error (i := .hbuild) (hbuild_overflow large)]
    rfl

/-- Settles O41: a count is at most NPIX, so it fits an entry, and every sample is counted under one value. -/
theorem histCountsEveryValue : Obligations.HistCountsEveryValue := by
  intro s width height
  obtain ⟨t, executed, counts, frame⟩ := exec_hist_counts ((declaredSizeOk_iff s).2 ⟨width, height⟩)
  refine ⟨t, executed, counts, ?_, frame⟩
  rw [totalFrequency, List.map_congr_left fun v mem => counts v (List.mem_range.1 mem), sum_count_rasterList]

/-- Settles O42: HBUILD's tree meets the merging relation, and its table holds the paths to the leaves. -/
theorem hbuildReadsCodesOffTheMergedTree : Obligations.HbuildReadsCodesOffTheMergedTree := by
  intro s used small
  obtain ⟨root, built, executed⟩ := exec_hbuild_ok s (one_le_distinctValues used) small
  refine ⟨_, makeLeaves s.freq, root, executed, rfl, makeLeaves_leavesInOrder s, ?_, fun v path inside => ?_,
    fun v path code => ?_⟩
  · rwa [length_makeLeaves]
  · rw [codeAt_succeed, codeAt_root built v inside]
  · rw [length_makeLeaves]
    exact codeAt_root_length built v path code

/-- Settles O43: the leaves are the used values, each once, and the estimate fits its 40 bits. -/
theorem hbuildWritesTableCountAndEstimate : Obligations.HbuildWritesTableCountAndEstimate := by
  intro s used small
  obtain ⟨root, built, executed⟩ := exec_hbuild_ok s (one_le_distinctValues used) small
  exact ⟨_, executed, codeAt_root_isSome built, toNat_ncodes_writeTable (assign root []), est_root built small,
    succeed_writeTable_frame _ s⟩

/-- Settles O44: with one used value the tree is its leaf, and the total is one frequency. -/
theorem singleValueGetsTheEmptyCode : Obligations.SingleValueGetsTheEmptyCode := by
  intro s v inside nonzero others
  have single : usedValues s = [v] := by
    refine usedValues_eq (List.pairwise_singleton _ v) fun u => ?_
    rw [List.mem_singleton]
    refine ⟨fun is => is ▸ ⟨inside, nonzero⟩, fun ⟨inTable, used⟩ => ?_⟩
    by_contra other
    exact used (others u inTable other)
  have alone : distinctValues s = 1 := by rw [← length_usedValues, single]; rfl
  have small : totalFrequency s < 2 ^ 32 := by
    rw [totalFrequency_eq_sum_used, single]
    simpa using (s.freqAt v).isLt
  obtain ⟨root, built, executed⟩ := exec_hbuild_ok s (Nat.le_of_eq alone.symm) small
  obtain ⟨empty, absent⟩ := codeAt_root_single built single
  refine ⟨_, executed, rfl, empty, fun w _ => absent w, (toNat_ncodes_writeTable (assign root [])).trans alone, ?_⟩
  rw [est_succeed, est_root_used built small, single, List.map_singleton, List.sum_singleton, estimateTerm, empty]
  exact Nat.zero_mul _

/-- Settles O45: the two leaves are merged once, the one of the smaller key to the left. -/
theorem twoValuesGetOneBitEach : Obligations.TwoValuesGetOneBitEach := by
  intro s v w below inside nonzeroV nonzeroW others small
  have pair : usedValues s = [v, w] := by
    refine usedValues_eq (List.pairwise_pair.2 below) fun u => ?_
    rw [List.mem_pair]
    constructor
    · rintro (rfl | rfl)
      · exact ⟨below.trans inside, nonzeroV⟩
      · exact ⟨inside, nonzeroW⟩
    · rintro ⟨inTable, used⟩
      by_contra! other
      exact used (others u inTable other.1 other.2)
  have two : distinctValues s = 2 := by rw [← length_usedValues, pair]; rfl
  obtain ⟨root, built, executed⟩ := exec_hbuild_ok s (by omega) small
  obtain ⟨vFirst, wFirst⟩ := codeAt_root_two_values built pair
  exact ⟨_, executed, rfl, (toNat_ncodes_writeTable (assign root [])).trans two, vFirst, wFirst,
    est_root_two_values built pair small⟩

/-- Settles O46: no leaf lies on the path to another, and a path is empty only where the root is the one leaf. -/
theorem hbuildCodesArePrefixFree : Obligations.HbuildCodesArePrefixFree := by
  intro s some_used small
  obtain ⟨root, built, executed⟩ := exec_hbuild_ok s some_used small
  refine ⟨_, executed, rfl, fun two => ⟨fun v w a b => codeAt_root_prefix_free built, fun v a code => ?_⟩,
    fun alone => ?_⟩
  · have nonempty : a ≠ [] := by
      rw [ne_eq, codeAt_root_empty_iff built code]
      omega
    exact List.length_pos_iff.2 nonempty
  · rw [← length_usedValues, List.length_eq_one_iff] at alone
    obtain ⟨v, single⟩ := alone
    exact ⟨v, codeAt_root_single built single⟩

/-- Settles O47: every value HBUILD writes is computed from FREQ. -/
theorem hbuildDependsOnFreqAlone : Obligations.HbuildDependsOnFreqAlone := by
  intro s s' agree
  have same := freq_eq_of_freqAt agree
  obtain ⟨e, fails, fails'⟩ | ⟨table, writes, writes'⟩ := hbuild_sameFreq same
  · obtain ⟨nonzero, -⟩ := e.code_bounds
    exact ⟨_, _, exec_of_error (i := .hbuild) fails, exec_of_error (i := .hbuild) fails', rfl,
      fun success => absurd success nonzero⟩
  · refine ⟨_, _, exec_of_ok (i := .hbuild) writes, exec_of_ok (i := .hbuild) writes', rfl, fun _ => ⟨rfl, ?_⟩⟩
    simp [same]

end Sys2Proof.Proofs
end

section
/-! The interrupt line and how a completion leaves it (R154, R158), and which errors the commands of each kind end with
(R152): the rules that the statements of 60_exceptions.md rest on. -/

namespace Sys2Proof.Machine

/-! ### Every step is a next state (R150, R185) -/

theorem exists_step (s : State) : ∃ t, step s = .next t := by
  obtain ⟨rest, ⟨-, -, eq⟩ | ⟨-, -, result, eq, -⟩ | ⟨sp, i, -, eq⟩ | ⟨sp, i, v, -, -, eq⟩ | ⟨sp, i, v, -, -, eq⟩ |
    ⟨-, eq⟩⟩ := step_cases s
  all_goals exact ⟨_, eq⟩

/-! ### The interrupt line (R158) -/

theorem irq_eq_true_iff (s : State) : s.irq = true ↔ s.ie = true ∧ s.done = true := Bool.and_eq_true_iff

theorem irq_of_done {s : State} (done : s.done = true) : s.irq = s.ie := by
  rw [State.irq, done, Bool.and_true]

theorem irq_of_not_done {s : State} (clear : s.done = false) : s.irq = false := by
  rw [State.irq, clear, Bool.and_false]

theorem irq_of_not_ie {s : State} (disabled : s.ie = false) : s.irq = false := by
  rw [State.irq, disabled, Bool.false_and]

/-! ### Completion (R22, R154) -/

@[simp] theorem complete_done (s : State) (result : Except CmdError State) : (complete s result).done = true := by
  cases result <;> rfl

/-- A command that succeeds leaves IE. -/
theorem commandResult_ie {i : Instr} {s u : State} (result : commandResult i s = .ok u) : u.ie = s.ie :=
  (congrArg State.ie (commandResult_frame result) :)

/-- The completion of a command leaves IE, with or without an error. -/
theorem complete_commandResult_ie (i : Instr) (s : State) : (complete s (commandResult i s)).ie = s.ie := by
  cases result : commandResult i s with
  | error e => rfl
  | ok u => exact (commandResult_ie result :)

/-- The engine's turn of the busy block sets DONE and leaves IE, whatever LATCH holds. -/
theorem step_completion_done_ie {s : State} {rest : List Event} (turn : engineNext s rest) (busy : s.busy = true) :
    ∃ t, step s = .next t ∧ t.done = true ∧ t.ie = s.ie := by
  obtain ⟨result, completes, origin⟩ := engineTurn_busy (s := setPending rest s) busy
  refine ⟨_, (step_engine turn).trans completes, complete_done _ _, ?_⟩
  obtain rfl | ⟨i, rfl⟩ := origin
  · rfl
  · exact complete_commandResult_ie i (setPending rest s)

/-! ### The errors a command ends with (R151, R152) -/

/-- ERR after a command is 0 or the code of the error the command raises. -/
theorem toNat_err_of_exec {i : Instr} {s t : State} (h : exec i s = .next t) :
    t.err.toNat = 0 ∨ ∃ e, commandResult i s = .error e ∧ t.err.toNat = e.code.toNat := by
  obtain ⟨e, raises, rfl⟩ | ⟨u, -, rfl⟩ := exec_cases h
  · exact .inr ⟨e, raises, rfl⟩
  · exact .inl rfl

theorem commandResult_error_rasterCommand {i : Instr} {s : State} {e : CmdError}
    (command : i = .rleEnc ∨ i = .bpEnc ∨ i = .hist) (raises : commandResult i s = .error e) :
    e = .unsupportedImageSize := by
  have errors := commandResult_error raises
  obtain rfl | rfl | rfl := command <;> simpa using errors

theorem commandResult_error_decoder {i : Instr} {s : State} {e : CmdError} (command : i = .rleDec ∨ i = .bpDec)
    (raises : commandResult i s = .error e) : e = .format ∨ e = .overrun ∨ e = .truncatedData := by
  have errors := commandResult_error raises
  obtain rfl | rfl := command <;> simpa using errors

theorem commandResult_error_hbuild {s : State} {e : CmdError} (raises : commandResult .hbuild s = .error e) :
    e = .emptyHistogram ∨ e = .frequencyOverflow := by
  simpa using commandResult_error raises

end Sys2Proof.Machine
end

section
/-! The statements of 60_exceptions.md. -/

namespace Sys2Proof.Proofs
open Sys2Proof.Machine

/-- Settles O19: a completion sets DONE and leaves IE; each of the other steps leaves DONE or IE at 0. -/
theorem interruptLineFollowsIeAndDone : Obligations.InterruptLineFollowsIeAndDone := by
  intro s rest
  refine ⟨irq_eq_true_iff s, fun turn busy => ?_, fun c idle turn => ?_, fun v idle one turn => ?_,
    fun v idle zero turn => ?_, fun turn => ?_⟩
  · obtain ⟨t, steps, done, ie⟩ := step_completion_done_ie turn busy
    exact ⟨t, steps, (irq_of_done done).trans ie⟩
  · exact ⟨_, step_writeCsr_idle turn idle, irq_of_not_done (issue_done c _)⟩
  · refine ⟨_, step_writeCsr_idle turn idle, irq_of_not_done ?_⟩
    rw [csrWrite, clearStatus_done, one, Bool.not_true, Bool.and_false]
  · exact ⟨_, step_writeCsr_idle turn idle, irq_of_not_ie zero⟩
  · exact ⟨_, step_reset turn, irq_of_not_done (resetBlock_done _)⟩

/-- Settles O24: a command that ends with an error takes it in the state at issue, and one that succeeds leaves
ERR = 0. -/
theorem failedCommandChangesOnlyStatusErrErrlog : Obligations.FailedCommandChangesOnlyStatusErrErrlog := by
  intro i s t h failed
  obtain ⟨e, -, rfl⟩ | ⟨u, -, rfl⟩ := exec_cases h
  · rfl
  · exact absurd (succeed_err u) failed

/-- Settles O25, by the errors of each kind of command and their codes. -/
theorem eachCommandRaisesOnlyItsErrors : Obligations.EachCommandRaisesOnlyItsErrors := by
  refine fun s t => ⟨fun i command h => ?_, fun i command h => ?_, fun h => ?_⟩
  · obtain success | ⟨e, raises, code⟩ := toNat_err_of_exec h
    · exact .inl success
    · obtain rfl := commandResult_error_rasterCommand command raises
      exact .inr code
  · obtain success | ⟨e, raises, code⟩ := toNat_err_of_exec h
    · omega
    · rw [code]
      obtain rfl | rfl | rfl := commandResult_error_decoder command raises <;> decide
  · obtain success | ⟨e, raises, code⟩ := toNat_err_of_exec h
    · exact .inl success
    · obtain rfl | rfl := commandResult_error_hbuild raises
      · exact .inr (.inl code)
      · exact .inr (.inr code)

/-- Settles O9: every case of a step is a next state. -/
theorem everyStateHasANextState : Obligations.EveryStateHasANextState := exists_step

end Sys2Proof.Proofs
end

section
/-! The buffer invariant (R35, R36; log 2), the run of a busy block up to the turn that ends its command (R185), run lists
that `rle` gives back (R90), and accesses outside the ranges (R56). -/

namespace Sys2Proof.Machine

/-! ### The buffer invariant (R35, R36, R104) -/

/-- The buffer invariant speaks of RASTER and STREAM alone. -/
theorem BuffersInv.congr {s t : State} (inv : BuffersInv s) (raster : t.raster = s.raster)
    (stream : t.stream = s.stream) : BuffersInv t := by
  rw [BuffersInv, raster, stream]
  exact inv

/-- The records of RLE_ENC's artifact are at most one per sample, so it fits STREAM (R104). -/
theorem length_rle_samples_le (s : State) :
    (rle (samples Config.geometry s)).length ≤ Config.geometry.streamCap := by
  have few := length_rleRuns_rasterList_le s
  rw [← rasterList_eq_samples, rle, length_serialise, streamCap_eq]
  omega

/-- The records of BP_ENC's artifact are at most one per sample and plane, so it fits STREAM (R104). -/
theorem length_bpArtifact_samples_le (s : State) :
    (bpArtifact (samples Config.geometry s)).length ≤ Config.geometry.streamCap := by
  have few := (length_planeRuns_bounds s).2
  rw [← rasterList_eq_samples, bpArtifact_eq, length_serialise, streamCap_eq]
  omega

/-- An artifact that fits STREAM keeps the buffer invariant. -/
theorem BuffersInv.writeArtifact {s : State} (inv : BuffersInv s) {out : List Byte}
    (fits : out.length ≤ Config.geometry.streamCap) : BuffersInv (writeArtifact out s) :=
  ⟨inv.1, Memory.wf_overwrite inv.2 fits⟩

/-- A whole raster keeps the buffer invariant. -/
theorem BuffersInv.writeRaster {s : State} (inv : BuffersInv s) {out : List Byte}
    (full : out.length = Config.geometry.npix) : BuffersInv (writeRaster Config.geometry out s) :=
  ⟨Memory.wf_overwrite inv.1 (Nat.le_of_eq full), inv.2⟩

/-- A command that succeeds writes an artifact that fits STREAM, a whole raster, or neither buffer (R65). -/
theorem commandResult_keeps_buffersInv {i : Instr} {s u : State} (inv : BuffersInv s)
    (result : commandResult i s = .ok u) : BuffersInv u := by
  obtain ⟨-, rfl⟩ | ⟨-, rfl⟩ | ⟨-, out, full, rfl⟩ | ⟨-, f, rfl⟩ | ⟨-, -, -, root, -, rfl⟩ := commandResult_ok result
  · exact inv.writeArtifact (length_rle_samples_le s)
  · exact inv.writeArtifact (length_bpArtifact_samples_le s)
  · exact inv.writeRaster full
  · exact inv.congr rfl rfl
  · exact inv.congr rfl rfl

/-- A CSR write leaves RASTER and STREAM. -/
theorem csrWrite_buffers (i : Nat) (v : Word) (s : State) :
    (csrWrite i v s).raster = s.raster ∧ (csrWrite i v s).stream = s.stream := by
  unfold csrWrite
  split
  all_goals exact ⟨rfl, rfl⟩

/-- A host write while idle stays inside the range of its space (R50, R56). -/
theorem idleWrite_keeps_buffersInv {s : State} (inv : BuffersInv s) (sp : Space) (i : Nat) (v : Word) :
    BuffersInv (idleWrite Config.geometry sp i v s) := by
  cases sp with
  | csr =>
    obtain ⟨raster, stream⟩ := csrWrite_buffers i v s
    exact inv.congr raster stream
  | raster =>
    by_cases inside : i < Config.geometry.npix
    · rw [idleWrite_raster inside]
      exact ⟨Memory.wf_set inv.1 inside _, inv.2⟩
    · rw [idleWrite, if_neg inside]
      exact inv
  | stream =>
    by_cases inside : i < Config.geometry.streamCap
    · rw [idleWrite_stream inside]
      exact ⟨inv.1, Memory.wf_set inv.2 inside _⟩
    · rw [idleWrite, if_neg inside]
      exact inv
  | freq => exact inv.congr rfl rfl
  | code => exact inv

theorem step_keeps_buffersInv {s t : State} (inv : BuffersInv s) (h : step s = .next t) : BuffersInv t := by
  have here (rest : List Event) : BuffersInv (setPending rest s) := inv.congr rfl rfl
  cases stepCase_of_step h with
  | idles => exact inv.congr rfl rfl
  | fails => exact inv.congr rfl rfl
  | succeeds rest i u turn busy result =>
    exact (commandResult_keeps_buffersInv (here rest) result).congr rfl rfl
  | reads => exact inv.congr rfl rfl
  | readsBusy => exact inv.congr rfl rfl
  | drops => exact inv.congr rfl rfl
  | issues => exact inv.congr rfl rfl
  | clears => exact inv.congr rfl rfl
  | writes sp i v rest _ turn idle written frame =>
    rw [written]
    exact idleWrite_keeps_buffersInv (here rest) sp i v
  | resets => exact ⟨Memory.wf_nil _, Memory.wf_nil _⟩

/-! ### The completion of an issued command (R182, R185) -/

/-- A run may be lengthened at its end as well as at its start. -/
theorem run_succ_last {s u t : State} {k : Nat} (ran : core.run k s = .next u) (h : step u = .next t) :
    core.run (k + 1) s = .next t := by
  induction k generalizing s with
  | zero =>
    rw [run_zero] at ran
    injection ran with same
    rw [same, run_succ 0 h, run_zero]
  | succ k ih =>
    obtain ⟨s', first⟩ := exists_step s
    rw [run_succ k first] at ran
    rw [run_succ (k + 1) first]
    exact ih ran

@[simp] theorem complete_busy (s : State) (result : Except CmdError State) : (complete s result).busy = false := by
  cases result <;> rfl

/-- The engine's turn of the busy block ends the command: BUSY falls and DONE rises (R22). -/
theorem step_completion_busy_done {s : State} {rest : List Event} (turn : engineNext s rest) (busy : s.busy = true) :
    ∃ t, step s = .next t ∧ t.busy = false ∧ t.done = true := by
  obtain ⟨result, completes, -⟩ := engineTurn_busy (s := setPending rest s) busy
  exact ⟨_, (step_engine turn).trans completes, complete_busy _ _, complete_done _ _⟩

/-- The host accesses at the front of the pending list leave the command in flight as it is; the turn behind them is the
engine's or a reset. -/
theorem exists_run_to_turn {s : State} {turns : List Event} (pending : s.pending = turns) (busy : s.busy = true) :
    ∃ k u, k ≤ turns.length ∧ core.run k s = .next u ∧ u.busy = true ∧ u.latch = s.latch ∧
      ((∃ rest, engineNext u rest) ∨ (.reset ∈ turns ∧ ∃ rest, u.pending = .reset :: rest)) := by
  induction turns generalizing s with
  | nil => exact ⟨0, s, Nat.le_refl 0, run_zero s, busy, rfl, .inl ⟨[], .inr ⟨pending, rfl⟩⟩⟩
  | cons e rest ih =>
    by_cases access : isHostAccess e = true
    · obtain ⟨haz, draws, returned, first⟩ := step_access_busy pending access busy
      obtain ⟨k, u, few, ran, stillBusy, latch, turn⟩ :=
        ih (s := withPortSide haz draws returned (setPending rest s)) rfl busy
      exact ⟨k + 1, u, Nat.succ_le_succ few, (run_succ k first).trans ran, stillBusy, latch,
        turn.imp_right fun ⟨mem, next⟩ => ⟨List.mem_cons_of_mem e mem, next⟩⟩
    · refine ⟨0, s, Nat.zero_le _, run_zero s, busy, rfl, ?_⟩
      cases e with
      | engine => exact .inl ⟨rest, .inl pending⟩
      | reset => exact .inr ⟨List.mem_cons_self, rest, pending⟩
      | hostRead sp i => exact absurd rfl access
      | hostWrite sp i v => exact absurd rfl access

/-! ### Run lists that `rle` gives back (R90) -/

/-- A legal run at the front of a sequence is taken as the current run whole. -/
theorem rleRuns_replicate_append {r : Run} (legal : r.wellFormed = true) (rest : List Byte) :
    rleRuns (List.replicate r.length r.symbol ++ rest) = runsFrom r.symbol r.length rest := by
  obtain ⟨positive, capped⟩ := (Run.wellFormed_iff r).1 legal
  obtain ⟨n, length⟩ := Nat.exists_eq_add_of_le positive
  rw [length, Nat.add_comm 1 n, List.replicate_succ, List.cons_append, rleRuns_cons,
    runsFrom_replicate_append _ 1 n rest (by omega), Nat.add_comm 1 n]

/-- The current run is closed before a run that maximality keeps apart from it. -/
theorem runsFrom_expandRuns {symbol : Byte} {length : Nat} {q : Run} (rest : List Run) (positive : 1 ≤ q.length)
    (apart : symbol = q.symbol → length = 255) :
    runsFrom symbol length (expandRuns (q :: rest)) = ⟨symbol, length⟩ :: rleRuns (expandRuns (q :: rest)) := by
  obtain ⟨n, qLength⟩ := Nat.exists_eq_add_of_le' positive
  have closes : q.symbol ≠ symbol ∨ length = 255 := by
    by_cases same : symbol = q.symbol
    · exact .inr (apart same)
    · exact .inl (Ne.symm same)
  rw [expandRuns_cons, qLength, List.replicate_succ, List.cons_append, runsFrom, if_pos closes, rleRuns_cons]

/-- `rle` gives back every list of legal maximal runs from the symbols it stands for. -/
theorem rleRuns_expandRuns {runs : List Run} (legal : ∀ r ∈ runs, r.wellFormed = true) (maximal : MaximalRuns runs) :
    rleRuns (expandRuns runs) = runs := by
  induction runs with
  | nil => rfl
  | cons r rest ih =>
    obtain ⟨legalHead, legalTail⟩ := List.forall_mem_cons.1 legal
    rw [expandRuns_cons, rleRuns_replicate_append legalHead]
    cases rest with
    | nil => rfl
    | cons q rest =>
      obtain ⟨apart, maximalTail⟩ := maximal
      have positive := ((Run.wellFormed_iff q).1 (legalTail q List.mem_cons_self)).1
      rw [runsFrom_expandRuns rest positive apart, ih legalTail maximalTail]

/-! ### Accesses outside the ranges (R56) -/

theorem portElement_csr_outside (g : Geometry) (s : State) {i : Nat} (outside : 16 ≤ i) :
    portElement g s .csr i = .word 0#32 := by
  rw [portElement, csrRead_reserved s (by omega)]

theorem portElement_raster_outside {g : Geometry} {i : Nat} (outside : g.npix ≤ i) (s : State) :
    portElement g s .raster i = .word 0#32 := by
  rw [portElement, if_neg (Nat.not_lt.2 outside)]

theorem portElement_stream_outside {g : Geometry} {i : Nat} (outside : g.streamCap ≤ i) (s : State) :
    portElement g s .stream i = .word 0#32 := by
  rw [portElement, if_neg (Nat.not_lt.2 outside)]

theorem portElement_freq_outside (g : Geometry) {i : Nat} (outside : 256 ≤ i) (s : State) :
    portElement g s .freq i = .word 0#32 := by
  rw [portElement, State.freqAt, dif_neg (Nat.not_lt.2 outside)]

theorem portElement_code_outside (g : Geometry) {i : Nat} (outside : 256 ≤ i) (s : State) :
    portElement g s .code i = .code none := by
  rw [portElement, codeAt_outside s i (Nat.not_lt.2 outside)]

/-- A write the idle block ignores takes its turn off the pending list and does nothing else. -/
theorem step_write_ignored {s : State} {sp : Space} {i : Nat} {v : Word} {rest : List Event}
    (turn : s.pending = .hostWrite sp i v :: rest) (idle : s.busy = false)
    (ignored : ∀ u, idleWrite Config.geometry sp i v u = u) : step s = .next { s with pending := rest } := by
  rw [step_write_idle turn idle, ignored]
  rfl

theorem idleWrite_raster_outside {g : Geometry} {i : Nat} (outside : g.npix ≤ i) (v : Word) (s : State) :
    idleWrite g .raster i v s = s := if_neg (Nat.not_lt.2 outside)

theorem idleWrite_stream_outside {g : Geometry} {i : Nat} (outside : g.streamCap ≤ i) (v : Word) (s : State) :
    idleWrite g .stream i v s = s := if_neg (Nat.not_lt.2 outside)

theorem idleWrite_freq_outside (g : Geometry) {i : Nat} (outside : 256 ≤ i) (v : Word) (s : State) :
    idleWrite g .freq i v s = s := by
  have unchanged : s.freq.setIfInBounds i v = s.freq := by
    ext j inside
    rw [Vector.getElem_setIfInBounds, if_neg (by omega)]
  rw [idleWrite_freq, unchanged]

end Sys2Proof.Machine
end

section
/-! The statements about what every step keeps (the buffers), how a command in flight ends (completion, reset), that a
run list is unique, and which turns do nothing. -/

namespace Sys2Proof.Proofs
open Sys2Proof.Machine

/-- Settles O53, by the cases of a step: a write of a buffer stays inside its range, and an artifact has at most one
record per sample and plane. -/
theorem everyStepKeepsBuffersInv : Obligations.EveryStepKeepsBuffersInv :=
  fun _ _ inv h => step_keeps_buffersInv inv h

/-- Settles O10: the turn behind the host accesses at the front is the engine's, which completes the command, or a reset,
which abandons it. -/
theorem everyIssuedCommandCompletes : Obligations.EveryIssuedCommandCompletes := by
  intro s busy
  obtain ⟨k, u, few, ran, stillBusy, latch, ⟨rest, turn⟩ | ⟨reset, rest, turn⟩⟩ := exists_run_to_turn rfl busy
  · obtain ⟨t, completes, idle, done⟩ := step_completion_busy_done turn stillBusy
    exact ⟨fun _ => ⟨k, u, t, rest, few, ran, stillBusy, latch, turn, completes, idle, done⟩,
      k + 1, t, Nat.succ_le_succ few, run_succ_last ran completes, idle⟩
  · exact ⟨fun noReset => absurd rfl (noReset _ reset),
      k + 1, _, Nat.succ_le_succ few, run_succ_last ran (step_reset turn), resetBlock_busy _⟩

/-- Settles O22, field by field; the buffers list nothing, so they read as the new reset's free values. -/
theorem resetStepLeavesTheResetValues : Obligations.ResetStepLeavesTheResetValues := by
  intro s rest turn
  exact ⟨_, step_reset turn, rfl, rfl, rfl, rfl, rfl, rfl, rfl, rfl, rfl, rfl, rfl, rfl, rfl, codeAt_of_absent rfl,
    fun _ => rfl, fun _ => rfl, fun _ inside => freqAt_ofFn (resetBlock (setPending rest s)) _ inside,
    rfl, rfl, rfl, rfl⟩

/-- Settles O32: `rle` computes a run list, and gives back any other one from the sequence it expands to. -/
theorem rleComputesTheOnlyRunList : Obligations.RleComputesTheOnlyRunList := by
  intro seq runs
  constructor
  · rintro ⟨legal, maximal, rfl⟩
    exact (rleRuns_expandRuns legal maximal).symm
  · rintro rfl
    exact isRunListOf_rleRuns seq

/-- Settles O6. -/
theorem engineIsIdleWhenNotBusy : Obligations.EngineIsIdleWhenNotBusy := by
  intro s rest turn idle
  rw [step_engine turn, engineTurn_idle (by exact idle)]
  rfl

/-- Settles O15, space by space: the port's answer outside each range, and the writes it ignores. -/
theorem outOfRangeAndReadOnlyAccesses : Obligations.OutOfRangeAndReadOnlyAccesses := by
  intro s i v rest idle
  refine ⟨fun turn outside => ?_, fun turn outside => ?_, fun turn outside => ?_, fun turn outside => ?_,
    fun turn outside => ?_, fun turn readOnly => ?_, fun turn outside => ?_, fun turn outside => ?_,
    fun turn outside => ?_, fun turn => ?_⟩
  · rw [step_read_idle turn idle, portElement_csr_outside _ s outside]
  · rw [step_read_idle turn idle, portElement_raster_outside outside]
  · rw [step_read_idle turn idle, portElement_stream_outside outside]
  · rw [step_read_idle turn idle, portElement_freq_outside _ outside]
  · rw [step_read_idle turn idle, portElement_code_outside _ outside]
  · exact step_write_ignored turn idle fun u => csrWrite_ignored v u (by omega)
  · exact step_write_ignored turn idle (idleWrite_raster_outside outside v)
  · exact step_write_ignored turn idle (idleWrite_stream_outside outside v)
  · exact step_write_ignored turn idle (idleWrite_freq_outside _ outside v)
  · exact step_write_ignored turn idle fun _ => rfl

end Sys2Proof.Proofs
end
